-- ==== Sys2Proof/Word.lean ====
section
/-!
DEFINITION. The word of the block: every window access, command word and SHA-256 value is 32 bits
(R10, R11, R52). A big-number value is not a word: it is a natural number below `2 ^ OPW` (R11).
-/

namespace Sys2Proof

/-- A 32-bit word: what crosses the register window in one access (R52), a command word (R80), a SHA-256 value (R160). -/
abbrev Word := BitVec 32

/-- A byte of a message, before the host packs it into words (R55). -/
abbrev Byte := BitVec 8

end Sys2Proof
end

