-- ==== Sys2Proof/Machine/Arith.lean ====
section
/-!
DEFINITION. The integer arithmetic of the commands, on natural numbers and exact (R11, R100), as functions that can be
run: square-and-multiply (R105), Euclid (R116), extended Euclid (R112), the Montgomery product (R123, R124) and its
word-serial form (R127), decompose and the witness loop (R140, R142). That each gives the value of its rule is
proved in Laws/Arith.lean or stated as an obligation.
-/

namespace Sys2Proof.Machine

/-! ### Exponentiation -/

/-- R105's loop over the bits of `e`, least significant first: `p` is the squared base, `r` the running product. -/
def powModLoop (n : Nat) : Nat → Nat → Nat → Nat → Nat
  | 0, _, _, r => r
  | k + 1, e, p, r => powModLoop n k (e / 2) (p * p % n) (if e % 2 = 1 then r * p % n else r)

/-- `(b ^ e) mod n` (R102), by R105's loop over the bits of `e`. -/
def powMod (b e n : Nat) : Nat := powModLoop n (e.log2 + 1) e (b % n) (1 % n)

/-! ### Greatest common divisor -/

/-- R116's loop, with fuel: `(a, b) <- (b, a mod b)` while `b != 0`. -/
def euclidLoop : Nat → Nat → Nat → Nat
  | 0, a, _ => a
  | k + 1, a, b => if b = 0 then a else euclidLoop k b (a % b)

/-- Euclid's algorithm (R116). `b` strictly decreases, so `b` iterations are enough. -/
def euclid (a b : Nat) : Nat := euclidLoop (b + 1) a b

/-! ### Modular inverse -/

/-- R112's loop, with fuel. The pair is `(r0, t0)` where it ends. -/
def egcdLoop : Nat → Nat → Nat → Int → Int → Nat × Int
  | 0, r0, _, t0, _ => (r0, t0)
  | k + 1, r0, r1, t0, t1 =>
    if r1 = 0 then (r0, t0) else egcdLoop k r1 (r0 % r1) t1 (t0 - (r0 / r1 : Nat) * t1)

/-- The inverse of `a` modulo `n` in `[0, n)`, if there is one (R109), by extended Euclid (R112). -/
def modInv? (a n : Nat) : Option Nat :=
  match egcdLoop (n + 1) n (a % n) 0 1 with
  | (g, t) => if g = 1 then some (t % (n : Int)).toNat else none

/-! ### Montgomery product -/

/-- `Rinv(n)`: the inverse of the radix `R = 2 ^ OPW` modulo `n` (R123). It exists for every odd `n`, the only `n` it
is used for. -/
def rinv (opw n : Nat) : Nat := (modInv? (2 ^ opw) n).getD 0

/-- `(a * b * Rinv(n)) mod n` (R124). -/
def montProduct (opw a b n : Nat) : Nat := a * b * rinv opw n % n

/-- `n' = -(n^-1 mod 2^32) mod 2^32` (R127). -/
def redcFactor (n : Nat) : Nat := (2 ^ 32 - (modInv? n (2 ^ 32)).getD 0) % 2 ^ 32

/-- One iteration of R127's loop, on word `i` of `a`. -/
def redcStep (a b n : Nat) (t i : Nat) : Nat :=
  let t := t + (a / 2 ^ (32 * i) % 2 ^ 32) * b
  let q := (t % 2 ^ 32) * redcFactor n % 2 ^ 32
  (t + q * n) / 2 ^ 32

/-- R127's word-serial REDC over `nw` words (informative in the spec; no command uses it). The loop of subtractions at
its end leaves the remainder of division by `n`. -/
def redc (nw a b n : Nat) : Nat := (List.range nw).foldl (redcStep a b n) 0 % n

/-! ### Miller–Rabin -/

/-- R140's halving loop, with fuel. -/
def decomposeLoop : Nat → Nat → Nat → Nat × Nat
  | 0, s, d => (s, d)
  | k + 1, s, d => if d % 2 = 0 then decomposeLoop k (s + 1) (d / 2) else (s, d)

/-- `decompose(n)` for `n > 1`: `n - 1 = 2^s * d` with `d` odd (R140). -/
def decompose (n : Nat) : Nat × Nat := decomposeLoop (n.log2 + 1) 0 (n - 1)

/-- R142's squaring loop: `n - 1` is reached within `k` squarings of `x`. -/
def reachesMinusOne (n : Nat) : Nat → Nat → Bool
  | 0, _ => false
  | k + 1, x =>
    let x := x * x % n
    if x = n - 1 then true else reachesMinusOne n k x

/-- `isWitness(n, a)` for `n > 1` (R142). -/
def isWitness (n a : Nat) : Bool :=
  match decompose n with
  | (s, d) =>
    let x := powMod a d n
    if x = 1 ∨ x = n - 1 then false else !reachesMinusOne n (s - 1) x

end Sys2Proof.Machine
end

