-- ==== Sys2Proof/Config.lean ====
section
/-!
DEFINITION. What one chip fixes and the spec leaves open: the named parameters OPW, BASE, BUS_BYTE_ORDER and
IRQ_LINE (R6, R8, R54, R201), the fixed NXREG (R7), and the free value of a read the spec puts under no law (R62).
LAT (R9) has no constant here: it is the place of the engine's turn in the schedule of a state (notes/assumptions/2.md).
-/

namespace Sys2Proof

/-- NXREG, the number of big-number registers. Fixed, not a parameter (R7). -/
abbrev NXREG : Nat := 8

/-- How the host bus numbers the four byte lanes of a word (R54). DESIGN CHOICE: the spec lists no values for
BUS_BYTE_ORDER; that it is one of these two is the model's choice (notes/assumptions/10.md). -/
inductive ByteOrder where
  | littleEndian
  | bigEndian
deriving DecidableEq, Repr

/-- The named parameters of one chip on one platform. A state carries them and no step changes them, so a claim
about every state is a claim for every parameter (notes/assumptions/1.md). -/
structure Params where
  /-- OPW, the width in bits of a big-number register (R6). -/
  opw : Nat
  /-- BASE, the host address at which the 16 KiB window starts (R8). -/
  base : Nat
  /-- BUS_BYTE_ORDER. No rule of the block depends on it (R54), and nothing below reads it. -/
  busByteOrder : ByteOrder
  /-- IRQ_LINE, the host input the IRQ output is wired to. The block only drives the level (R201). DESIGN CHOICE: a
  natural number, since the spec gives it no form (notes/assumptions/10.md). -/
  irqLine : Nat
deriving DecidableEq, Repr

/-- NW, the number of 32-bit words in a big-number register (R6). -/
def Params.nw (p : Params) : Nat := p.opw / 32

/-- The bounds the spec puts on the parameters: OPW is a multiple of 32 in 64..8192 (R6), BASE is a multiple of
0x4000 (R8). -/
def Params.valid (p : Params) : Bool :=
  p.opw % 32 == 0 && decide (64 ≤ p.opw) && decide (p.opw ≤ 8192) && p.base % 0x4000 == 0

/-- Free: this chip's NW, less 2. The spec says only that NW is in 2..256 (R6). -/
opaque Config.nwIndex : Fin 255

/-- Free: this platform's BASE, in units of the window's size (R8). -/
opaque Config.baseIndex : Nat

/-- Free: whether this platform's BUS_BYTE_ORDER (R54) is big-endian, of the two values the model gives it
(notes/assumptions/10.md). -/
opaque Config.busIsBigEndian : Bool

/-- Free: this platform's IRQ_LINE (R201). -/
opaque Config.irqLine : Nat

/-- Free: the word that the `k`-th read under no law returns. R62 calls it a draw, any 32-bit value. -/
opaque Config.freeWord : Nat → Word

/-- The parameters of the chip that `State.reset` is about: valid by construction, otherwise unknown. -/
def Config.params : Params where
  opw := 32 * (Config.nwIndex.val + 2)
  base := 0x4000 * Config.baseIndex
  busByteOrder := if Config.busIsBigEndian then .bigEndian else .littleEndian
  irqLine := Config.irqLine

end Sys2Proof
end

