-- ==== Sys2Proof/Syntax.lean ====
section
/-!
DEFINITION. The seven commands of the block (R2, R83), one constructor per row of spec/opcode_table.json, and the
error codes a command can complete with (R190).
-/

namespace Sys2Proof

/-- A register field of a command word, as the word holds it: four bits (R81). The values 0..7 select X0..X7;
8..15 select nothing (R82), and a well-formed instruction holds none of them. -/
abbrev RegField := BitVec 4

/-- The commands (R83). The fields stand in the assembler's order RD, RA, RB, RN, less those the opcode does not
use (R89); an unused field has no place here, since it must be 0 in the word (R82). -/
inductive Instr where
  /-- OP 0x01, Montgomery multiplication (R122). -/
  | montmul (rd ra rb rn : RegField)
  /-- OP 0x02, modular exponentiation (R101). -/
  | modexp (rd ra rb rn : RegField)
  /-- OP 0x03, greatest common divisor (R115). -/
  | gcd (rd ra rb : RegField)
  /-- OP 0x04, modular inverse (R108). -/
  | modinv (rd ra rn : RegField)
  /-- OP 0x05, Miller–Rabin witness test (R141). -/
  | mrwit (rd ra rn : RegField)
  /-- OP 0x06, load the initial hash value (R169). -/
  | shainit
  /-- OP 0x07, compress one message block (R173). -/
  | shacomp
deriving DecidableEq, Repr

/-- The error codes of STATUS.ERRCODE (R190). Codes 7..15 are never produced (R30), so there is no constructor for
one. -/
inductive ErrCode where
  /-- 0: no error. -/
  | none
  /-- 1: reserved OP (R85). -/
  | illOp
  /-- 2: RSV, a used register field or an unused field is bad (R86). -/
  | illField
  /-- 3: the modulus is 0. -/
  | modZero
  /-- 4: the modulus of MONTMUL is even and not 0. -/
  | modEven
  /-- 5: MODINV's operand has no inverse. -/
  | noInverse
  /-- 6: MRWIT's candidate is at most 1. -/
  | nSmall
deriving DecidableEq, Repr

end Sys2Proof
end

