-- ==== Sys2Proof/WellFormed.lean ====
section
/-!
DEFINITION. Which instructions a command word can stand for: every register field the opcode uses selects a register
(R82, R84).
-/

namespace Sys2Proof

/-- The field selects one of X0..X7 (R82). -/
def RegField.selects (r : RegField) : Bool := decide (r.toNat < NXREG)

/-- The register fields an instruction uses, in the order RD, RA, RB, RN (R83). -/
def Instr.fields : Instr → List RegField
  | .montmul rd ra rb rn => [rd, ra, rb, rn]
  | .modexp rd ra rb rn => [rd, ra, rb, rn]
  | .gcd rd ra rb => [rd, ra, rb]
  | .modinv rd ra rn => [rd, ra, rn]
  | .mrwit rd ra rn => [rd, ra, rn]
  | .shainit => []
  | .shacomp => []

/-- Well-formed: every used register field selects a register (R84, third condition). The other conditions of R84
(the opcode, RSV, the unused fields) are about words and have no place in an `Instr`. -/
def Instr.wf (i : Instr) : Bool := i.fields.all RegField.selects

end Sys2Proof
end

