-- ==== Sys2Proof/Decode.lean ====
section
/-!
DEFINITION. The command word: its fields (R81), the decoder (R92), the encoder (R93), and the opcode table as masks and
matches (R84). Every word is decoded or rejected by the name of its error code.
-/

namespace Sys2Proof

/-! ### Fields of a command word (R81) -/

/-- OP, bits 7:0. -/
def opField (w : Word) : BitVec 8 := w.extractLsb' 0 8

/-- RD, bits 11:8. -/
def rdField (w : Word) : RegField := w.extractLsb' 8 4

/-- RA, bits 15:12. -/
def raField (w : Word) : RegField := w.extractLsb' 12 4

/-- RB, bits 19:16. -/
def rbField (w : Word) : RegField := w.extractLsb' 16 4

/-- RN, bits 23:20. -/
def rnField (w : Word) : RegField := w.extractLsb' 20 4

/-- RSV, bits 31:24. -/
def rsvField (w : Word) : BitVec 8 := w.extractLsb' 24 8

/-! ### The decoder (R92) -/

/-- The check R92 makes of one register field: a used field selects a register, an unused one is 0. -/
def fieldOk (used : Bool) (f : RegField) : Bool := if used then f.selects else f == 0

/-- The checks that follow the opcode's in R92: RSV, then the four register fields, given which of RD, RA, RB, RN
the opcode uses. -/
def acceptFields (w : Word) (useD useA useB useN : Bool) (i : Instr) : Except ErrCode Instr :=
  if rsvField w == 0 && fieldOk useD (rdField w) && fieldOk useA (raField w)
      && fieldOk useB (rbField w) && fieldOk useN (rnField w)
  then .ok i else .error .illField

/-- What the engine reads from CMDLATCH (R92): an instruction, or the error code the word completes with. A reserved
OP is ILL_OP whatever the other fields hold (R192). -/
def decode (w : Word) : Except ErrCode Instr :=
  match (opField w).toNat with
  | 1 => acceptFields w true true true true (.montmul (rdField w) (raField w) (rbField w) (rnField w))
  | 2 => acceptFields w true true true true (.modexp (rdField w) (raField w) (rbField w) (rnField w))
  | 3 => acceptFields w true true true false (.gcd (rdField w) (raField w) (rbField w))
  | 4 => acceptFields w true true false true (.modinv (rdField w) (raField w) (rnField w))
  | 5 => acceptFields w true true false true (.mrwit (rdField w) (raField w) (rnField w))
  | 6 => acceptFields w false false false false .shainit
  | 7 => acceptFields w false false false false .shacomp
  | _ => .error .illOp

/-- The command word whose bits are `w`, numbered as spec/opcode_table.json numbers them, bits from `nbits` up being
0. The block takes the whole word in one 32-bit write (R80), so no byte order enters. -/
def tableWord (nbits w : Nat) : Word := BitVec.ofNat 32 (w % 2 ^ nbits)

/-- The instruction the decoder reads from the word of an opcode-table row. -/
def decodeTableWord (nbits w : Nat) : Option Instr :=
  match decode (tableWord nbits w) with
  | .ok i => some i
  | .error _ => none

/-! ### The encoder (R93) -/

/-- `w = op + rd*2^8 + ra*2^12 + rb*2^16 + rn*2^20` (R93), RSV being 0. -/
def packFields (op : Nat) (rd ra rb rn : RegField) : Word :=
  BitVec.ofNat 32 (op + rd.toNat * 2 ^ 8 + ra.toNat * 2 ^ 12 + rb.toNat * 2 ^ 16 + rn.toNat * 2 ^ 20)

/-- The opcode of an instruction (R83). -/
def Instr.opcode : Instr → Nat
  | .montmul .. => 1
  | .modexp .. => 2
  | .gcd .. => 3
  | .modinv .. => 4
  | .mrwit .. => 5
  | .shainit => 6
  | .shacomp => 7

/-- The command word of an instruction, unused fields 0 (R89, R93). -/
def encode : Instr → Word
  | .montmul rd ra rb rn => packFields 0x01 rd ra rb rn
  | .modexp rd ra rb rn => packFields 0x02 rd ra rb rn
  | .gcd rd ra rb => packFields 0x03 rd ra rb 0
  | .modinv rd ra rn => packFields 0x04 rd ra 0 rn
  | .mrwit rd ra rn => packFields 0x05 rd ra 0 rn
  | .shainit => packFields 0x06 0 0 0 0
  | .shacomp => packFields 0x07 0 0 0 0

/-! ### The opcode table (R84) -/

/-- One row of R84's table: a word is this row's instruction exactly when `word AND mask = pattern`. -/
structure OpcodeRow where
  mnemonic : String
  op : Nat
  mask : Word
  pattern : Word
deriving DecidableEq, Repr

/-- The word belongs to the row (R84). -/
def OpcodeRow.matches (r : OpcodeRow) (w : Word) : Bool := (w &&& r.mask) == r.pattern

/-- R84's table of masks and matches. The decoder above does not use it; that the two agree is stated. -/
def opcodeTable : List OpcodeRow :=
  [⟨"MONTMUL", 1, 0xFF8888FF, 0x00000001⟩,
   ⟨"MODEXP", 2, 0xFF8888FF, 0x00000002⟩,
   ⟨"GCD", 3, 0xFFF888FF, 0x00000003⟩,
   ⟨"MODINV", 4, 0xFF8F88FF, 0x00000004⟩,
   ⟨"MRWIT", 5, 0xFF8F88FF, 0x00000005⟩,
   ⟨"SHAINIT", 6, 0xFFFFFFFF, 0x00000006⟩,
   ⟨"SHACOMP", 7, 0xFFFFFFFF, 0x00000007⟩]

end Sys2Proof
end

