-- ==== Sys2Proof/Machine/State.lean ====
section
/-!
DEFINITION. The state of the block (R20), the schedule that says which agent moves next (R5, R200), the reasons a step
can stop, and the state after reset (R42). State is plain data.
-/

namespace Sys2Proof.Machine

/-- The fields of STATUS (R26). Its reserved bits read as 0 and ignore writes, so nothing is stored for them. -/
structure Status where
  /-- Bit 0: a command is in progress (R27). -/
  busy : Bool
  /-- Bit 1: a command has completed (R28). -/
  done : Bool
  /-- Bit 2: it completed with an error (R29). -/
  err : Bool
  /-- Bit 3: a CMD write was dropped (R31). -/
  ovr : Bool
  /-- Bit 4: the result of the last successful MRWIT (R32). -/
  flag : Bool
  /-- Bits 11:8: the cause of the error of the last command (R30). -/
  errcode : ErrCode
deriving DecidableEq, Repr

/-- What the host does in one access of the window (R12). -/
inductive AccessOp where
  /-- `MemRead` -/
  | read
  /-- `MemWrite` of a value -/
  | write (v : Word)
deriving DecidableEq, Repr

/-- One access a host makes. R52 gives a meaning only to aligned accesses of 32 bits, and R205 only to those of one
host, numbered 0 here; the others can be written down and are refused. -/
structure Access where
  /-- Which host processor. Host 0 is the one host of the model (R5). -/
  host : Nat
  /-- The host address (R8, R50). -/
  addr : Nat
  /-- The width in bits. -/
  width : Nat
  op : AccessOp
deriving DecidableEq, Repr

/-- One turn in the interleaving of the two agents (R5, R200). -/
inductive Event where
  /-- The host's access reaches the block. -/
  | access (a : Access)
  /-- The engine takes the completion step, if a command is in progress (R95). -/
  | engine
deriving DecidableEq, Repr

/-- The state of R20, and four fields of the model's own at the end. -/
structure State where
  /-- The open parameters of this chip and platform (R6, R8, R54, R201). No step changes them. -/
  params : Params
  /-- X0..X7, each a number below `2 ^ OPW` (R21); `State.Inv` says so. -/
  x : Vector Nat NXREG
  /-- H0..H7 (R23). -/
  h : Vector Word 8
  /-- M0..M15 (R24). -/
  m : Vector Word 16
  /-- STATUS (R26). -/
  status : Status
  /-- CTRL.IE, the only stored bit of CTRL (R34). -/
  ie : Bool
  /-- CMDLATCH (R40). -/
  cmdlatch : Word
  /-- The model's own: the turns still to come, first first. -/
  events : List Event
  /-- The model's own: the answers to the host's reads, newest first. -/
  reads : List Word
  /-- The model's own: how many reads have drawn a value under no law (R62). -/
  draws : Nat
deriving DecidableEq, Repr

/-- Why the machine stops with a fault. -/
inductive Fault where
  /-- A host access to an address outside `BASE .. BASE + 0x3FFF` (R50): it is no access to the block. Raised by
  `hostAccess`. Safe: the model goes no further. -/
  | outsideWindow (addr : Nat)
deriving DecidableEq, Repr

/-- Why the model gives a step no meaning. -/
inductive Refusal where
  /-- An instruction with no meaning yet. No arm of `exec` is left in this state. Safe. -/
  | notModelled (mnemonic : String)
  /-- An access whose width is not 32 bits: R52 refuses it. Raised by `hostAccess`. Safe. -/
  | accessWidth (width : Nat)
  /-- An access at an offset that is not a multiple of 4: R52 refuses it. Raised by `hostAccess`. Safe. -/
  | misaligned (addr : Nat)
  /-- An access by a second host processor: R205 refuses it. Raised by `hostAccess`. Safe. -/
  | secondHost (host : Nat)
deriving DecidableEq, Repr

/-- STATUS after reset, 0x00000000 (R42). -/
def Status.cleared : Status where
  busy := false
  done := false
  err := false
  ovr := false
  flag := false
  errcode := .none

/-- The state after a power-on reset of a chip with parameters `p` (R42, R220): every register 0, no command in
progress. No host access is scheduled and none has been answered. -/
def State.resetFor (p : Params) : State where
  params := p
  x := Vector.replicate NXREG 0
  h := Vector.replicate 8 0
  m := Vector.replicate 16 0
  status := Status.cleared
  ie := false
  cmdlatch := 0
  events := []
  reads := []
  draws := 0

/-- The machine right after power-on reset (R42, R220), of the chip whose parameters are left open. -/
def State.reset : State := State.resetFor Config.params

end Sys2Proof.Machine
end

