-- ==== Sys2Proof/Machine/Flags.lean ====
section
/-!
DEFINITION. STATUS, CTRL, INFO and IRQ: every way their fields change (R27 to R36) and what the host reads of them (R26,
R34, R37, R39).
-/

namespace Sys2Proof

/-- The number of an error code (R190). -/
def ErrCode.code : ErrCode → Nat
  | .none => 0
  | .illOp => 1
  | .illField => 2
  | .modZero => 3
  | .modEven => 4
  | .noInverse => 5
  | .nSmall => 6

namespace Machine

/-! ### How STATUS changes -/

/-- An issue sets BUSY and clears DONE, ERR and ERRCODE; OVR and FLAG stay (R94). -/
def Status.issue (st : Status) : Status :=
  { st with busy := true, done := false, err := false, errcode := .none }

/-- A successful completion clears BUSY and sets DONE (R95). -/
def Status.succeed (st : Status) : Status := { st with busy := false, done := true }

/-- A completion with error `c` sets ERR and ERRCODE, clears BUSY and sets DONE (R95, R191). -/
def Status.fail (st : Status) (c : ErrCode) : Status :=
  { st with busy := false, done := true, err := true, errcode := c }

/-- MRWIT's result goes to FLAG (R32). -/
def Status.withFlag (st : Status) (w : Bool) : Status := { st with flag := w }

/-- A CMD write was dropped (R31). -/
def Status.overrun (st : Status) : Status := { st with ovr := true }

/-- A host write of `v` to STATUS: write-1-to-clear of DONE, of ERR with ERRCODE, and of OVR (R33). -/
def Status.clearBy (st : Status) (v : Word) : Status :=
  { st with
    done := st.done && !v.getLsbD 1
    err := st.err && !v.getLsbD 2
    errcode := if v.getLsbD 2 then .none else st.errcode
    ovr := st.ovr && !v.getLsbD 3 }

/-! ### What the host reads -/

/-- STATUS as a word: BUSY, DONE, ERR, OVR, FLAG in bits 0 to 4, ERRCODE in bits 11:8, the rest 0 (R26). -/
def Status.toWord (st : Status) : Word :=
  BitVec.ofNat 32 (st.busy.toNat + st.done.toNat * 2 ^ 1 + st.err.toNat * 2 ^ 2 + st.ovr.toNat * 2 ^ 3
    + st.flag.toNat * 2 ^ 4 + st.errcode.code * 2 ^ 8)

/-- CTRL as a word: IE in bit 0; SRST and the reserved bits read as 0 (R34). -/
def State.ctrlWord (s : State) : Word := BitVec.ofNat 32 s.ie.toNat

/-- INFO: NW in 15:0, NXREG in 23:16, the revision 0x07 in 31:24 (R37). -/
def infoWord (p : Params) : Word := BitVec.ofNat 32 (p.nw + NXREG * 2 ^ 16 + 0x07 * 2 ^ 24)

/-- The interrupt output, `CTRL.IE AND STATUS.DONE`: derived, not state (R39). -/
def State.irq (s : State) : Bool := s.ie && s.status.done

end Machine

end Sys2Proof
end

