-- ==== Sys2Proof/Machine/Operands.lean ====
section
/-!
DEFINITION. The operands of commands and the words of a big-number register: reading and writing Xi by a register field
(R82, R87) and word by word (R13, R53).
-/

namespace Sys2Proof.Machine

/-- `word(x, j) = x[32*j+31 : 32*j]` (R13). -/
def xWord (x j : Nat) : Word := BitVec.ofNat 32 (x / 2 ^ (32 * j))

/-- `x` with word `j` replaced: `x - word(x, j) * 2^(32*j) + v * 2^(32*j)` (R53). -/
def setXWord (x j : Nat) (v : Word) : Nat :=
  x - (xWord x j).toNat * 2 ^ (32 * j) + v.toNat * 2 ^ (32 * j)

/-- `x[i]` for the register a field selects (R12). A field of 8 or more selects nothing (R82), and no command reads
through one. -/
def State.readX (s : State) (r : RegField) : Nat := s.x[r.toNat]?.getD 0

/-- `x[i] <- v` for the register a field selects (R12). A field of 8 or more selects nothing (R82): nothing is
written. -/
def State.writeX (s : State) (r : RegField) (v : Nat) : State :=
  { s with x := s.x.setIfInBounds r.toNat v }

/-- `h[i] <- v` for all eight words (R12). -/
def State.writeH (s : State) (h : Vector Word 8) : State := { s with h := h }

/-- The big-number register an instruction writes (R22, R83). -/
def destX : Instr → Option RegField
  | .montmul rd .. => some rd
  | .modexp rd .. => some rd
  | .gcd rd .. => some rd
  | .modinv rd .. => some rd
  | .mrwit rd .. => some rd
  | .shainit => none
  | .shacomp => none

/-- The instruction writes H0..H7 (R23). -/
def destH : Instr → Bool
  | .shainit => true
  | .shacomp => true
  | .montmul .. => false
  | .modexp .. => false
  | .gcd .. => false
  | .modinv .. => false
  | .mrwit .. => false

end Sys2Proof.Machine
end

