-- ==== Sys2Proof/Machine/Ops.lean ====
section
/-!
DEFINITION. The frame every command runs in: issue (R94), the two completions (R95, R191), the dropped command (R199) and
the soft reset (R221). The error completion `raiseCmdError` is the block's whole error mechanism (R191); it has no trap
entry and no return (R196, R197).
-/

namespace Sys2Proof.Machine

/-- The command word is accepted: CMDLATCH takes it and BUSY rises (R94). Any value is accepted, legal or not. -/
def State.issue (s : State) (w : Word) : State :=
  { s with cmdlatch := w, status := s.status.issue }

/-- `raise CmdError(c)`: the command completes with error. Only STATUS changes (R97, R191). -/
def State.raiseCmdError (s : State) (c : ErrCode) : State := { s with status := s.status.fail c }

/-- `complete()`: the command completes with success (R12, R95). -/
def State.complete (s : State) : State := { s with status := s.status.succeed }

/-- A CMD write while BUSY is dropped, and only OVR records it (R199). -/
def State.dropCommand (s : State) : State := { s with status := s.status.overrun }

/-- `STATUS.FLAG <- w` (R142). -/
def State.setFlag (s : State) (w : Bool) : State := { s with status := s.status.withFlag w }

/-- Soft reset: the state change of power-on reset in one step; a command in progress is abandoned (R221). The
parameters are the chip's, and what the host still does and has read is not the block's state: these stay. -/
def State.softReset (s : State) : State :=
  { State.resetFor s.params with events := s.events, reads := s.reads, draws := s.draws }

/-- The answer of a host read goes to the host. Nothing of the block changes (R58). -/
def State.answer (s : State) (v : Word) : State := { s with reads := v :: s.reads }

/-- The answer of a read under no law: a fresh draw (R62). -/
def State.answerFree (s : State) : State :=
  { s with reads := Config.freeWord s.draws :: s.reads, draws := s.draws + 1 }

/-- The frame of a meaning: a register field the opcode uses that selects nothing completes the command with
ILL_FIELD (R82); otherwise the opcode's own rule runs. The decoder lets no such field through, so this says what a
term of `Instr` that is not well-formed does. -/
def State.withOperands (s : State) (i : Instr) (rule : State) : Host.Outcome State Fault Refusal :=
  if i.wf then .next rule else .next (s.raiseCmdError .illField)

end Sys2Proof.Machine
end

