-- ==== Sys2Proof/Machine/Modular.lean ====
section
/-!
DEFINITION. The modular arithmetic commands MONTMUL, MODEXP, GCD and MODINV (spec/40_modular_arithmetic.md). Each operand is
the value its register holds when the engine runs; the result is written once (R95, R96).
-/

namespace Sys2Proof.Machine

/-- MONTMUL (R122 to R126): `x[RD] <- (a * b * Rinv(n)) mod n`; MOD_ZERO, then MOD_EVEN. -/
def execMontmul (rd ra rb rn : RegField) (s : State) : Host.Outcome State Fault Refusal :=
  let n := s.readX rn
  s.withOperands (.montmul rd ra rb rn)
    (if n = 0 then s.raiseCmdError .modZero
     else if n % 2 = 0 then s.raiseCmdError .modEven
     else (s.writeX rd (montProduct s.params.opw (s.readX ra) (s.readX rb) n)).complete)

/-- MODEXP (R101 to R104): `x[RD] <- (b ^ e) mod n`; MOD_ZERO. -/
def execModexp (rd ra rb rn : RegField) (s : State) : Host.Outcome State Fault Refusal :=
  let n := s.readX rn
  s.withOperands (.modexp rd ra rb rn)
    (if n = 0 then s.raiseCmdError .modZero
     else (s.writeX rd (powMod (s.readX ra) (s.readX rb) n)).complete)

/-- GCD (R115 to R118): `x[RD] <- gcd(a, b)`; no value error. -/
def execGcd (rd ra rb : RegField) (s : State) : Host.Outcome State Fault Refusal :=
  s.withOperands (.gcd rd ra rb) (s.writeX rd (euclid (s.readX ra) (s.readX rb))).complete

/-- MODINV (R108 to R111): `x[RD] <-` the inverse of `a` in `[0, n)`; MOD_ZERO, then NO_INVERSE. -/
def execModinv (rd ra rn : RegField) (s : State) : Host.Outcome State Fault Refusal :=
  let n := s.readX rn
  s.withOperands (.modinv rd ra rn)
    (if n = 0 then s.raiseCmdError .modZero
     else match modInv? (s.readX ra) n with
       | none => s.raiseCmdError .noInverse
       | some y => (s.writeX rd y).complete)

end Sys2Proof.Machine
end

