-- ==== Sys2Proof/Machine/Primality.lean ====
section
/-!
DEFINITION. The primality command MRWIT (spec/41_primality.md).
-/

namespace Sys2Proof.Machine

/-- MRWIT (R141 to R143): the witness test of base `x[RA]` for candidate `x[RN]`. The result, 0 or 1, goes to `x[RD]` and
to STATUS.FLAG; N_SMALL when the candidate is at most 1. -/
def execMrwit (rd ra rn : RegField) (s : State) : Host.Outcome State Fault Refusal :=
  let n := s.readX rn
  s.withOperands (.mrwit rd ra rn)
    (if n ≤ 1 then s.raiseCmdError .nSmall
     else
       let w := isWitness n (s.readX ra)
       ((s.writeX rd w.toNat).setFlag w).complete)

end Sys2Proof.Machine
end

