-- ==== Sys2Proof/Machine/Sha256.lean ====
section
/-!
DEFINITION. The SHA-256 commands SHAINIT and SHACOMP (spec/42_sha256.md): word operations, constants, schedule, round and
compression. All additions are modulo `2 ^ 32` (R160), which is what `+` on `Word` is.
-/

namespace Sys2Proof.Machine

/-! ### Word operations (R160 to R163) -/

/-- `ROTR(x, k)`, rotate right (R160). -/
def rotr (x : Word) (k : Nat) : Word := (x >>> k) ||| (x <<< (32 - k))

/-- `SHR(x, k)`, logical shift right (R160). -/
def shr (x : Word) (k : Nat) : Word := x >>> k

/-- Σ0 (R161). -/
def bigSigma0 (x : Word) : Word := rotr x 2 ^^^ rotr x 13 ^^^ rotr x 22

/-- Σ1 (R161). -/
def bigSigma1 (x : Word) : Word := rotr x 6 ^^^ rotr x 11 ^^^ rotr x 25

/-- σ0 (R162). -/
def smallSigma0 (x : Word) : Word := rotr x 7 ^^^ rotr x 18 ^^^ shr x 3

/-- σ1 (R162). -/
def smallSigma1 (x : Word) : Word := rotr x 17 ^^^ rotr x 19 ^^^ shr x 10

/-- `Ch(e, f, g)` (R163). -/
def ch (e f g : Word) : Word := (e &&& f) ^^^ (~~~e &&& g)

/-- `Maj(a, b, c)` (R163). -/
def maj (a b c : Word) : Word := (a &&& b) ^^^ (a &&& c) ^^^ (b &&& c)

/-! ### Constants (R164, R165) -/

/-- The round-constant table `K[0..63]`, row by row as R164 prints it: row `r` is `K[8r]` to `K[8r+7]`. -/
def roundConstants : List Word :=
  [0x428a2f98, 0x71374491, 0xb5c0fbcf, 0xe9b5dba5, 0x3956c25b, 0x59f111f1, 0x923f82a4, 0xab1c5ed5] ++
  [0xd807aa98, 0x12835b01, 0x243185be, 0x550c7dc3, 0x72be5d74, 0x80deb1fe, 0x9bdc06a7, 0xc19bf174] ++
  [0xe49b69c1, 0xefbe4786, 0x0fc19dc6, 0x240ca1cc, 0x2de92c6f, 0x4a7484aa, 0x5cb0a9dc, 0x76f988da] ++
  [0x983e5152, 0xa831c66d, 0xb00327c8, 0xbf597fc7, 0xc6e00bf3, 0xd5a79147, 0x06ca6351, 0x14292967] ++
  [0x27b70a85, 0x2e1b2138, 0x4d2c6dfc, 0x53380d13, 0x650a7354, 0x766a0abb, 0x81c2c92e, 0x92722c85] ++
  [0xa2bfe8a1, 0xa81a664b, 0xc24b8b70, 0xc76c51a3, 0xd192e819, 0xd6990624, 0xf40e3585, 0x106aa070] ++
  [0x19a4c116, 0x1e376c08, 0x2748774c, 0x34b0bcb5, 0x391c0cb3, 0x4ed8aa4a, 0x5b9cca4f, 0x682e6ff3] ++
  [0x748f82ee, 0x78a5636f, 0x84c87814, 0x8cc70208, 0x90befffa, 0xa4506ceb, 0xbef9a3f7, 0xc67178f2]

/-- The initial hash value `IV[0..7]` (R165). -/
def initialHash : Vector Word 8 :=
  #v[0x6a09e667, 0xbb67ae85, 0x3c6ef372, 0xa54ff53a, 0x510e527f, 0x9b05688c, 0x1f83d9ab, 0x5be0cd19]

/-! ### Schedule (R166) -/

/-- The next schedule word from the ones before it, newest first:
`W[t] = σ1(W[t-2]) + W[t-7] + σ0(W[t-15]) + W[t-16]` (R166). -/
def nextScheduleWord (newest : List Word) : Word :=
  smallSigma1 (newest.getD 1 0) + newest.getD 6 0 + smallSigma0 (newest.getD 14 0) + newest.getD 15 0

/-- `k` more schedule words, newest first. -/
def extendSchedule : Nat → List Word → List Word
  | 0, newest => newest
  | k + 1, newest => extendSchedule k (nextScheduleWord newest :: newest)

/-- The message schedule `W[0..63]` of a block (R166). -/
def schedule (m : Vector Word 16) : List Word := (extendSchedule 48 m.toList.reverse).reverse

/-! ### Rounds and compression (R167, R168) -/

/-- The working variables `a..h` (R167). -/
structure Working where
  a : Word
  b : Word
  c : Word
  d : Word
  e : Word
  f : Word
  g : Word
  h : Word
deriving DecidableEq, Repr

/-- One round, given `K[t]` and `W[t]` (R167). The right-hand sides are the values before the round. -/
def shaRound (v : Working) (k w : Word) : Working :=
  let temp1 := v.h + bigSigma1 v.e + ch v.e v.f v.g + k + w
  let temp2 := bigSigma0 v.a + maj v.a v.b v.c
  { a := temp1 + temp2, b := v.a, c := v.b, d := v.c, e := v.d + temp1, f := v.e, g := v.f, h := v.g }

/-- The rounds, one for each pair of a round constant and a schedule word. -/
def shaRounds (ks ws : List Word) (v : Working) : Working :=
  (ks.zip ws).foldl (fun v kw => shaRound v kw.1 kw.2) v

/-- The working variables start as the hash state (R168). -/
def Working.ofHash (h : Vector Word 8) : Working :=
  ⟨h[0], h[1], h[2], h[3], h[4], h[5], h[6], h[7]⟩

/-- The final working variables are added to the hash state, each modulo `2 ^ 32` (R168). -/
def foldHash (h : Vector Word 8) (v : Working) : Vector Word 8 :=
  #v[h[0] + v.a, h[1] + v.b, h[2] + v.c, h[3] + v.d, h[4] + v.e, h[5] + v.f, h[6] + v.g, h[7] + v.h]

/-- `compress(H, M)` (R168). -/
def compress (h : Vector Word 8) (m : Vector Word 16) : Vector Word 8 :=
  foldHash h (shaRounds roundConstants (schedule m) (Working.ofHash h))

/-! ### The commands -/

/-- SHAINIT (R169 to R171): H0..H7 take the initial hash value. -/
def execShainit (s : State) : Host.Outcome State Fault Refusal :=
  s.withOperands .shainit (s.writeH initialHash).complete

/-- SHACOMP (R173 to R176): H0..H7 take `compress(H, M)`; M is unchanged. -/
def execShacomp (s : State) : Host.Outcome State Fault Refusal :=
  s.withOperands .shacomp (s.writeH (compress s.h s.m)).complete

end Sys2Proof.Machine
end

