-- ==== Sys2Proof/Machine/Dispatch.lean ====
section
/-! DEFINITION. One arm per command: the engine executes a decoded command (R95). -/

namespace Sys2Proof.Machine

def exec (i : Instr) (s : State) : Host.Outcome State Fault Refusal :=
  match i with
  | .montmul rd ra rb rn => Sys2Proof.Machine.execMontmul rd ra rb rn s
  | .modexp rd ra rb rn => Sys2Proof.Machine.execModexp rd ra rb rn s
  | .gcd rd ra rb => Sys2Proof.Machine.execGcd rd ra rb s
  | .modinv rd ra rn => Sys2Proof.Machine.execModinv rd ra rn s
  | .mrwit rd ra rn => Sys2Proof.Machine.execMrwit rd ra rn s
  | .shainit => Sys2Proof.Machine.execShainit s
  | .shacomp => Sys2Proof.Machine.execShacomp s

end Sys2Proof.Machine
end

