-- ==== Sys2Proof/Machine/Engine.lean ====
section
/-!
DEFINITION. The engine's turn (R95): with a command in progress it takes the completion step; otherwise it takes no step
and the state holds (R207).
-/

namespace Sys2Proof.Machine

/-- The engine's turn: decode CMDLATCH and execute, or complete with the decoder's error (R92, R95). -/
def engineTurn (s : State) : Host.Outcome State Fault Refusal :=
  if s.status.busy then
    match decode s.cmdlatch with
    | .ok i => exec i s
    | .error c => .next (s.raiseCmdError c)
  else .next s

end Sys2Proof.Machine
end

