-- ==== Sys2Proof/Machine/Window.lean ====
section
/-!
DEFINITION. The register window as the host sees it (spec/20_memory.md): the map (R51), reads (R57, R58, R62), writes with
their side effects (R59, R61), and which accesses have a meaning (R50, R52, R205).
-/

namespace Sys2Proof.Machine

/-- What stands at an aligned offset of the window (R51). -/
inductive WindowReg where
  | info
  | ctrl
  | status
  | cmd
  /-- H0..H7 -/
  | h (i : Fin 8)
  /-- M0..M15 -/
  | m (i : Fin 16)
  /-- word `j` of Xi, `j < NW` -/
  | x (i : Fin 8) (j : Nat)
  /-- a reserved offset (R57), words `j >= NW` of Xi among them (R53) -/
  | reserved
deriving DecidableEq, Repr

/-- The window map (R51), for registers of `nw` words. -/
def windowReg (nw off : Nat) : WindowReg :=
  if off = 0x000 then .info
  else if off = 0x004 then .ctrl
  else if off = 0x008 then .status
  else if off = 0x00C then .cmd
  else if 0x100 ≤ off ∧ off < 0x120 then .h (Fin.ofNat 8 ((off - 0x100) / 4))
  else if 0x140 ≤ off ∧ off < 0x180 then .m (Fin.ofNat 16 ((off - 0x140) / 4))
  else if 0x1000 ≤ off ∧ off < 0x3000 then
    let j := (off - 0x1000) % 0x400 / 4
    if j < nw then .x (Fin.ofNat 8 ((off - 0x1000) / 0x400)) j else .reserved
  else .reserved

/-- The value a register holds, as the host reads it: CMD and reserved offsets read as 0 (R38, R57). -/
def State.peek (s : State) : WindowReg → Word
  | .info => infoWord s.params
  | .ctrl => s.ctrlWord
  | .status => s.status.toWord
  | .cmd => 0
  | .h i => s.h[i]
  | .m i => s.m[i]
  | .x i j => xWord s.x[i] j
  | .reserved => 0

/-- The instruction writes the register: a word of Xd, or H0..H7 (R62). -/
def writesReg (ins : Instr) : WindowReg → Bool
  | .x i _ => match destX ins with
    | some rd => rd.toNat == i.val
    | none => false
  | .h _ => destH ins
  | .info => false
  | .ctrl => false
  | .status => false
  | .cmd => false
  | .m _ => false
  | .reserved => false

/-- The register is one the running command writes (R62). A word in CMDLATCH that is no instruction writes none
(R97). -/
def State.inFlight (s : State) (r : WindowReg) : Bool :=
  s.status.busy && (match decode s.cmdlatch with
    | .ok ins => writesReg ins r
    | .error _ => false)

/-- A host read (R58): the contents, or, of a register the running command writes, any value (R62). -/
def State.hostRead (s : State) (r : WindowReg) : State :=
  if s.inFlight r then s.answerFree else s.answer (s.peek r)

/-- A host write of `v` (R59): a command is issued or dropped (R94, R199); STATUS bits are cleared (R33); CTRL resets or
takes IE (R36); a write of X, H or M is stored, or ignored while BUSY (R53, R61); any other is ignored (R57). -/
def State.hostWrite (s : State) (r : WindowReg) (v : Word) : State :=
  match r with
  | .cmd => if s.status.busy then s.dropCommand else s.issue v
  | .status => { s with status := s.status.clearBy v }
  | .ctrl => if v.getLsbD 1 then s.softReset else { s with ie := v.getLsbD 0 }
  | .h i => if s.status.busy then s else { s with h := s.h.set i v }
  | .m i => if s.status.busy then s else { s with m := s.m.set i v }
  | .x i j => if s.status.busy then s else { s with x := s.x.set i (setXWord s.x[i] j v) }
  | .info => s
  | .reserved => s

/-- The address is in the block's window, `BASE .. BASE + 0x3FFF` (R50). -/
def inWindow (p : Params) (addr : Nat) : Bool := decide (p.base ≤ addr) && decide (addr < p.base + 0x4000)

/-- The window register at a host address (R8, R51). -/
def State.regAt (s : State) (addr : Nat) : WindowReg := windowReg s.params.nw (addr - s.params.base)

/-- One host access: the one host's aligned 32-bit access to the window is performed (R63); any other is refused
(R52, R205) or falls outside the window (R50). -/
def hostAccess (a : Access) (s : State) : Host.Outcome State Fault Refusal :=
  if a.host ≠ 0 then .refused (.secondHost a.host)
  else if a.width ≠ 32 then .refused (.accessWidth a.width)
  else if inWindow s.params a.addr = false then .fault (.outsideWindow a.addr)
  else if (a.addr - s.params.base) % 4 ≠ 0 then .refused (.misaligned a.addr)
  else match a.op with
    | .read => .next (s.hostRead (s.regAt a.addr))
    | .write v => .next (s.hostWrite (s.regAt a.addr) v)

end Sys2Proof.Machine
end

