-- ==== Sys2Proof/Machine/Step.lean ====
section
/-!
DEFINITION. One step of the two agents (R5, R200): the first turn of the schedule is taken. When the schedule is empty the
host makes no more accesses, and the engine is left to complete (R229, R230).
-/

namespace Sys2Proof.Machine

/-- One atomic step: a host access or an engine turn (R200). -/
def step (s : State) : Host.Outcome State Fault Refusal :=
  match s.events with
  | [] => engineTurn s
  | .engine :: rest => engineTurn { s with events := rest }
  | .access a :: rest => hostAccess a { s with events := rest }

/-- The state in which the engine runs the command word of bits `w` next: the word has been issued (R94), so that CMDLATCH
holds it and BUSY is set, and the engine has the next turn. -/
def State.withFetchWord (s : State) (nbits w : Nat) : State :=
  { s.issue (tableWord nbits w) with events := .engine :: s.events }

end Sys2Proof.Machine
end

