-- ==== Sys2Proof/Machine/HostSoftware.lean ====
section
/-!
DEFINITION. The host's side, which the spec describes so that a whole use of the block can be written down: assembler syntax
(R89), the pseudo-instructions as window accesses (R90), packing and rendering of SHA-256 data (R55, R56), and the
informative host procedures around MRWIT and SHACOMP (R147 to R149, R178 to R180). `step` uses none of it.
-/

namespace Sys2Proof.Machine

/-! ### Assembler syntax (R89) -/

/-- `x0`..`x7`. -/
def regName (r : RegField) : String := "x" ++ toString r.toNat

/-- An instruction as the assembler writes it (R89). -/
def asmOf (i : Instr) : String :=
  match i with
  | .montmul .. => "montmul " ++ operands
  | .modexp .. => "modexp " ++ operands
  | .gcd .. => "gcd " ++ operands
  | .modinv .. => "modinv " ++ operands
  | .mrwit .. => "mrwit " ++ operands
  | .shainit => "shainit"
  | .shacomp => "shacomp"
where
  /-- The register operands in the order RD, RA, RB, RN. -/
  operands : String := String.intercalate ", " (i.fields.map regName)

/-! ### Window accesses and pseudo-instructions (R12, R90) -/

/-- `MemRead(off, 4)` (R12). -/
def memRead (p : Params) (off : Nat) : Event := .access ⟨0, p.base + off, 32, .read⟩

/-- `MemWrite(off, 4, v)` (R12). -/
def memWrite (p : Params) (off : Nat) (v : Word) : Event := .access ⟨0, p.base + off, 32, .write v⟩

/-- The offset of word `j` of Xi (R53). -/
def xOffset (i j : Nat) : Nat := 0x1000 + 0x400 * i + 4 * j

/-- Writing a command mnemonic: `MemWrite(0x00C, 4, encoding)` (R89). -/
def issueCmd (p : Params) (i : Instr) : Event := memWrite p 0x00C (encode i)

/-- `wrx xI, V` -/
def wrx (p : Params) (i v : Nat) : List Event :=
  (List.range p.nw).map fun j => memWrite p (xOffset i j) (xWord v j)

/-- `rdx xI` -/
def rdx (p : Params) (i : Nat) : List Event := (List.range p.nw).map fun j => memRead p (xOffset i j)

/-- The value of `rdx`: the sum of `word_j * 2^(32*j)` over the answers, given oldest first. -/
def rdxValue : List Word → Nat
  | [] => 0
  | w :: ws => w.toNat + 2 ^ 32 * rdxValue ws

/-- `wrh hI, V` -/
def wrh (p : Params) (i : Nat) (v : Word) : Event := memWrite p (0x100 + 4 * i) v

/-- `rdh hI` -/
def rdh (p : Params) (i : Nat) : Event := memRead p (0x100 + 4 * i)

/-- `wrm mI, V` -/
def wrm (p : Params) (i : Nat) (v : Word) : Event := memWrite p (0x140 + 4 * i) v

/-- `wait`, as one interleaving: `polls` reads of STATUS find BUSY set, the engine completes, and the last read finds it
clear. The spec leaves the number open (R9). -/
def waitFor (p : Params) (polls : Nat) : List Event :=
  List.replicate polls (memRead p 0x008) ++ [.engine, memRead p 0x008]

/-- `ack` -/
def ack (p : Params) : Event := memWrite p 0x008 0x0000000E

/-- `ien` -/
def ien (p : Params) : Event := memWrite p 0x004 1

/-- `idis` -/
def idis (p : Params) : Event := memWrite p 0x004 0

/-- `srst` -/
def srst (p : Params) : Event := memWrite p 0x004 2

/-! ### SHA-256 on the host (R55, R56, R178 to R180) -/

/-- `m[i] = B[4i]*2^24 + B[4i+1]*2^16 + B[4i+2]*2^8 + B[4i+3]` (R55). -/
def packWord (b0 b1 b2 b3 : Byte) : Word :=
  BitVec.ofNat 32 (b0.toNat * 2 ^ 24 + b1.toNat * 2 ^ 16 + b2.toNat * 2 ^ 8 + b3.toNat)

/-- The message registers of one 64-byte block (R55). -/
def packBlock (bytes : List Byte) : Vector Word 16 :=
  Vector.ofFn fun i =>
    packWord (bytes.getD (4 * i) 0) (bytes.getD (4 * i + 1) 0) (bytes.getD (4 * i + 2) 0) (bytes.getD (4 * i + 3) 0)

/-- A 64-bit big-endian integer as bytes. -/
def lengthBytes (bits : Nat) : List Byte :=
  (List.range 8).map fun i => BitVec.ofNat 8 (bits / 2 ^ (8 * (7 - i)))

/-- The padded message (R178). -/
def padMessage (bytes : List Byte) : List Byte :=
  bytes ++ [0x80] ++ List.replicate ((119 - bytes.length % 64) % 64) 0 ++ lengthBytes (8 * bytes.length)

/-- The first `k` 64-byte blocks of a padded message. -/
def blocksOf : Nat → List Byte → List (Vector Word 16)
  | 0, _ => []
  | k + 1, bytes => packBlock (bytes.take 64) :: blocksOf k (bytes.drop 64)

/-- `compress(... compress(IV, B1) ..., Bk)` (R180). -/
def digestWords (blocks : List (Vector Word 16)) : Vector Word 8 := blocks.foldl compress initialHash

/-- The digest of a message (R179). -/
def sha256 (bytes : List Byte) : Vector Word 8 :=
  digestWords (blocksOf ((padMessage bytes).length / 64) (padMessage bytes))

/-- One lowercase hexadecimal digit. -/
def hexDigit (d : Nat) : Char := "0123456789abcdef".toList.getD d '0'

/-- The 8-digit lowercase spelling of a word, leading zeros kept (R56). -/
def lowerHex (w : Word) : List Char := (List.range 8).map fun i => hexDigit (w.toNat / 16 ^ (7 - i) % 16)

/-- The digest as 64 characters, H0 first (R56). -/
def digestHex (h : Vector Word 8) : List Char := h.toList.flatMap lowerHex

/-! ### Primality on the host (R147 to R149) -/

/-- `millerRabin(n, rounds)` for the bases the host drew, one a round: false at the first witness (R147). -/
def millerRabin (n : Nat) (bases : List Nat) : Bool := !bases.any (isWitness n)

/-- `isPrime(n, rounds)` for the bases the host drew: the fast paths, then `millerRabin` (R148). -/
def isPrime (n : Nat) (bases : List Nat) : Bool :=
  if n ≤ 1 ∨ n = 4 then false
  else if n = 2 ∨ n = 3 then true
  else if n % 2 = 0 then false
  else millerRabin n bases

/-- `generatePrime` for what the host drew, a candidate and the bases of its rounds each time: the first candidate that
passes (R149). -/
def generatePrime (drawn : List (Nat × List Nat)) : Option Nat :=
  (drawn.find? fun d => isPrime d.1 d.2).map Prod.fst

end Sys2Proof.Machine
end

