-- ==== Sys2Proof/Safety.lean ====
section
/-!
DEFINITION. The terms claims are stated in: the invariant of the block's state, the accesses a run is safe with, the end
of a run and what is observed of it (R230), and the part of a state that is the block's own (R20).
-/

namespace Sys2Proof.Machine

/-- What holds of STATUS in every run: while a command is in progress DONE and ERR are clear (R27 to R29), and ERR
goes with a code (R29, R30). -/
structure Status.Coherent (st : Status) : Prop where
  quiet_while_busy : st.busy = true → st.done = false ∧ st.err = false
  err_iff_code : st.err = true ↔ st.errcode ≠ .none

/-- The invariant: the parameters are in the spec's bounds (R6, R8), every big-number register is below `2 ^ OPW` (R11,
R21), and STATUS is coherent. -/
structure State.Inv (s : State) : Prop where
  params_valid : s.params.valid = true
  x_bounded : ∀ i : Fin 8, s.x[i] < 2 ^ s.params.opw
  status_coherent : s.status.Coherent

/-- An access the spec gives a meaning: the one host's, 32 bits, in the window, aligned (R5, R50, R52). -/
def Access.legal (p : Params) (a : Access) : Bool :=
  a.host == 0 && a.width == 32 && inWindow p a.addr && (a.addr - p.base) % 4 == 0

/-- Every host access of the schedule is legal. -/
def Event.legal (p : Params) : Event → Bool
  | .access a => a.legal p
  | .engine => true

/-- A run from the state is safe: no access in its schedule is refused or outside the window. -/
def State.Safe (s : State) : Prop := ∀ e ∈ s.events, e.legal s.params = true

/-- The run has ended: no access of the host is left in the schedule and no command is in progress (R230). Turns of the
engine may be left; it takes no step in them (R95). -/
def State.Ended (s : State) : Prop := (∀ e ∈ s.events, e = .engine) ∧ s.status.busy = false

/-- What an observation of an end state reads: X, H, M, STATUS and CTRL (R230). -/
structure Observation where
  x : Vector Nat 8
  h : Vector Word 8
  m : Vector Word 16
  status : Word
  ctrl : Word
deriving DecidableEq, Repr

/-- The observation of a state (R230). -/
def State.observe (s : State) : Observation where
  x := s.x
  h := s.h
  m := s.m
  status := s.status.toWord
  ctrl := s.ctrlWord

/-- The two states hold the same in every field the spec gives the block (R20): only the model's own fields may differ. -/
def State.SameBlock (s t : State) : Prop :=
  t.params = s.params ∧ t.x = s.x ∧ t.h = s.h ∧ t.m = s.m ∧ t.status = s.status ∧ t.ie = s.ie
    ∧ t.cmdlatch = s.cmdlatch

/-- The conditions R84 puts on a command word besides its opcode's being in use: RSV is 0, the fields the opcode uses
select registers, the others are 0. -/
def LegalFields (w : Word) : Prop :=
  rsvField w = 0 ∧
  (((opField w = 1 ∨ opField w = 2) ∧
      rdField w < 8 ∧ raField w < 8 ∧ rbField w < 8 ∧ rnField w < 8) ∨
   (opField w = 3 ∧ rdField w < 8 ∧ raField w < 8 ∧ rbField w < 8 ∧ rnField w = 0) ∨
   ((opField w = 4 ∨ opField w = 5) ∧ rdField w < 8 ∧ raField w < 8 ∧ rbField w = 0 ∧ rnField w < 8) ∨
   ((opField w = 6 ∨ opField w = 7) ∧ rdField w = 0 ∧ raField w = 0 ∧ rbField w = 0 ∧ rnField w = 0))

/-- The opcode is reserved (R85). -/
def ReservedOp (w : Word) : Prop := opField w = 0 ∨ 8 ≤ opField w

/-- The step is the engine's turn with a command in progress: the completion step (R95). -/
def State.EngineCompletes (s : State) : Prop :=
  s.status.busy = true ∧ (s.events = [] ∨ ∃ rest, s.events = .engine :: rest)

/-- The step is a host write of `v` to the window register `r`. -/
def State.HostWrites (s : State) (r : WindowReg) (v : Word) : Prop :=
  ∃ a rest, s.events = .access a :: rest ∧ a.legal s.params = true ∧ a.op = .write v ∧ s.regAt a.addr = r

/-- The step is a soft reset: a host write to CTRL with bit 1 set (R221). -/
def State.HostResets (s : State) : Prop := ∃ v, s.HostWrites .ctrl v ∧ v.getLsbD 1 = true

end Sys2Proof.Machine
end

