-- ==== Sys2Proof/Certificates/Slice0/Obligations.lean ====
section
/-!
DEFINITION. The statements for the provers. A next state is written out as a record over the state before, so that what it does
not name is unchanged. `memRead p off` and `memWrite p off v` are R12's accesses, the next turn in the schedule.
-/

open Sys2Proof Sys2Proof.Machine

/-! ### The commands: result, errors and next state, whole -/

/-- R124. MONTMUL with modulus 0 completes with MOD_ZERO, with an even one with MOD_EVEN, and with an odd one writes to RD the
unique `r < n` with `(r * 2^OPW) mod n = (a * b) mod n`. -/
def Obligations.MontmulWritesMontgomeryProduct : Prop :=
  ∀ (s : State) (rd ra rb rn : RegField), (Instr.montmul rd ra rb rn).wf = true →
    (s.readX rn = 0 →
      exec (.montmul rd ra rb rn) s = .next { s with status :=
        { s.status with busy := false, done := true, err := true, errcode := .modZero } }) ∧
    (s.readX rn ≠ 0 → s.readX rn % 2 = 0 →
      exec (.montmul rd ra rb rn) s = .next { s with status :=
        { s.status with busy := false, done := true, err := true, errcode := .modEven } }) ∧
    (s.readX rn % 2 = 1 →
      ∃ r, (r < s.readX rn ∧ r * 2 ^ s.params.opw % s.readX rn = s.readX ra * s.readX rb % s.readX rn) ∧
        (∀ r', r' < s.readX rn → r' * 2 ^ s.params.opw % s.readX rn = s.readX ra * s.readX rb % s.readX rn →
          r' = r) ∧
        exec (.montmul rd ra rb rn) s = .next { s with
          x := s.x.setIfInBounds rd.toNat r
          status := { s.status with busy := false, done := true } })

/-- R102. MODEXP with modulus 0 completes with MOD_ZERO, otherwise writes `(b ^ e) mod n` to RD. -/
def Obligations.ModexpWritesPower : Prop :=
  ∀ (s : State) (rd ra rb rn : RegField), (Instr.modexp rd ra rb rn).wf = true →
    (s.readX rn = 0 →
      exec (.modexp rd ra rb rn) s = .next { s with status :=
        { s.status with busy := false, done := true, err := true, errcode := .modZero } }) ∧
    (s.readX rn ≠ 0 →
      exec (.modexp rd ra rb rn) s = .next { s with
        x := s.x.setIfInBounds rd.toNat (s.readX ra ^ s.readX rb % s.readX rn)
        status := { s.status with busy := false, done := true } })

/-- R109. MODINV with modulus 0 completes with MOD_ZERO, with operands that are not coprime with NO_INVERSE, otherwise writes
the unique `y < n` with `(a * y) mod n = 1 mod n` to RD. -/
def Obligations.ModinvWritesInverse : Prop :=
  ∀ (s : State) (rd ra rn : RegField), (Instr.modinv rd ra rn).wf = true →
    (s.readX rn = 0 →
      exec (.modinv rd ra rn) s = .next { s with status :=
        { s.status with busy := false, done := true, err := true, errcode := .modZero } }) ∧
    (s.readX rn ≠ 0 → Nat.gcd (s.readX ra) (s.readX rn) ≠ 1 →
      exec (.modinv rd ra rn) s = .next { s with status :=
        { s.status with busy := false, done := true, err := true, errcode := .noInverse } }) ∧
    (s.readX rn ≠ 0 → Nat.gcd (s.readX ra) (s.readX rn) = 1 →
      ∃ y, (y < s.readX rn ∧ s.readX ra * y % s.readX rn = 1 % s.readX rn) ∧
        (∀ y', y' < s.readX rn → s.readX ra * y' % s.readX rn = 1 % s.readX rn → y' = y) ∧
        exec (.modinv rd ra rn) s = .next { s with
          x := s.x.setIfInBounds rd.toNat y
          status := { s.status with busy := false, done := true } })

/-- R116. GCD writes the greatest common divisor of its operands, 0 when both are 0, to RD. -/
def Obligations.GcdWritesGreatestCommonDivisor : Prop :=
  ∀ (s : State) (rd ra rb : RegField), (Instr.gcd rd ra rb).wf = true →
    exec (.gcd rd ra rb) s = .next { s with
      x := s.x.setIfInBounds rd.toNat (Nat.gcd (s.readX ra) (s.readX rb))
      status := { s.status with busy := false, done := true } }

/-- R140, R142. MRWIT with a candidate of at most 1 completes with N_SMALL; otherwise, with `n - 1 = 2^k * d` and `d` odd, it
writes to RD and FLAG the bit that is 0 exactly when `a^d mod n` is 1 or `n - 1`, or one of the next `k - 1` squarings of it
is `n - 1`. -/
def Obligations.MrwitWritesWitnessBit : Prop :=
  ∀ (s : State) (rd ra rn : RegField), (Instr.mrwit rd ra rn).wf = true →
    (s.readX rn ≤ 1 →
      exec (.mrwit rd ra rn) s = .next { s with status :=
        { s.status with busy := false, done := true, err := true, errcode := .nSmall } }) ∧
    (1 < s.readX rn →
      ∃ (k d : Nat) (w : Bool), s.readX rn - 1 = 2 ^ k * d ∧ d % 2 = 1 ∧
        (w = false ↔
          s.readX ra ^ d % s.readX rn = 1 ∨ s.readX ra ^ d % s.readX rn = s.readX rn - 1 ∨
            ∃ j, 1 ≤ j ∧ j ≤ k - 1 ∧ s.readX ra ^ (d * 2 ^ j) % s.readX rn = s.readX rn - 1) ∧
        exec (.mrwit rd ra rn) s = .next { s with
          x := s.x.setIfInBounds rd.toNat w.toNat
          status := { s.status with busy := false, done := true, flag := w } })

/-- R165, R170, R172. SHAINIT writes the initial hash value to H0..H7, from any state. -/
def Obligations.ShainitLoadsInitialHash : Prop :=
  ∀ s : State, exec .shainit s = .next { s with
    h := #v[0x6a09e667, 0xbb67ae85, 0x3c6ef372, 0xa54ff53a, 0x510e527f, 0x9b05688c, 0x1f83d9ab, 0x5be0cd19]
    status := { s.status with busy := false, done := true } }

/-- R166, R167, R168, R174. SHACOMP adds to H0..H7 the working variables after 64 rounds over the schedule of M0..M15. `W` is
the schedule and `v t` the working variables before round `t`. -/
def Obligations.ShacompCompressesBlock : Prop :=
  ∀ s : State, ∃ (W : Nat → Word) (v : Nat → Working),
    (∀ t : Fin 16, W t = s.m[t]) ∧
    (∀ t, 16 ≤ t → t ≤ 63 →
      W t = smallSigma1 (W (t - 2)) + W (t - 7) + smallSigma0 (W (t - 15)) + W (t - 16)) ∧
    v 0 = ⟨s.h[0], s.h[1], s.h[2], s.h[3], s.h[4], s.h[5], s.h[6], s.h[7]⟩ ∧
    (∀ t, t ≤ 63 →
      let temp1 := (v t).h + bigSigma1 (v t).e + ch (v t).e (v t).f (v t).g + roundConstants.getD t 0 + W t
      let temp2 := bigSigma0 (v t).a + maj (v t).a (v t).b (v t).c
      v (t + 1) = ⟨temp1 + temp2, (v t).a, (v t).b, (v t).c, (v t).d + temp1, (v t).e, (v t).f, (v t).g⟩) ∧
    exec .shacomp s = .next { s with
      h := #v[s.h[0] + (v 64).a, s.h[1] + (v 64).b, s.h[2] + (v 64).c, s.h[3] + (v 64).d,
        s.h[4] + (v 64).e, s.h[5] + (v 64).f, s.h[6] + (v 64).g, s.h[7] + (v 64).h]
      status := { s.status with busy := false, done := true } }

/-- R82. A command one of whose used register fields selects nothing completes with ILL_FIELD and has no other effect.
The decoder lets no such command through; this is the model's meaning of the term (notes/assumptions/8.md). -/
def Obligations.UnselectedFieldCompletesIllField : Prop :=
  ∀ (i : Instr) (s : State), i.wf = false →
    exec i s = .next { s with status :=
      { s.status with busy := false, done := true, err := true, errcode := .illField } }

/-- R95. Every command completes: BUSY falls and DONE rises, from every state. -/
def Obligations.EveryCommandCompletes : Prop :=
  ∀ (i : Instr) (s : State), ∃ t, exec i s = .next t ∧ t.status.busy = false ∧ t.status.done = true

/-! ### Frames -/

/-- R22, R103, R110, R117, R125. MONTMUL, MODEXP, GCD and MODINV change no register but RD, and of STATUS only BUSY, DONE, ERR
and ERRCODE: FLAG, OVR, H, M, IE, CMDLATCH and the schedule stay. -/
def Obligations.ModularCommandsFrame : Prop :=
  ∀ (s t : State) (i : Instr) (rd : RegField),
    ((∃ ra rb rn, i = .montmul rd ra rb rn) ∨ (∃ ra rb rn, i = .modexp rd ra rb rn) ∨
      (∃ ra rb, i = .gcd rd ra rb) ∨ (∃ ra rn, i = .modinv rd ra rn)) →
    exec i s = .next t →
    t = { s with
      x := t.x
      status := { s.status with
        busy := t.status.busy, done := t.status.done, err := t.status.err, errcode := t.status.errcode } } ∧
    ∀ j : Fin 8, j.val ≠ rd.toNat → t.x[j] = s.x[j]

/-- R22, R143. MRWIT changes no register but RD, and of STATUS only BUSY, DONE, ERR, ERRCODE and FLAG; where it completes with
error neither RD nor FLAG changes. -/
def Obligations.MrwitFrame : Prop :=
  ∀ (s t : State) (rd ra rn : RegField), exec (.mrwit rd ra rn) s = .next t →
    t = { s with
      x := t.x
      status := { s.status with
        busy := t.status.busy, done := t.status.done, err := t.status.err, errcode := t.status.errcode
        flag := t.status.flag } } ∧
    (∀ j : Fin 8, j.val ≠ rd.toNat → t.x[j] = s.x[j]) ∧
    (s.readX rn ≤ 1 ∨ (Instr.mrwit rd ra rn).wf = false → t.x = s.x ∧ t.status.flag = s.status.flag)

/-- R171, R174, R175. SHAINIT and SHACOMP change only H0..H7, and of STATUS only BUSY and DONE: no X and no M register, not
FLAG, not ERR. -/
def Obligations.ShaCommandsFrame : Prop :=
  ∀ (s t : State) (i : Instr), i = .shainit ∨ i = .shacomp → exec i s = .next t →
    t = { s with
      h := t.h
      status := { s.status with busy := t.status.busy, done := t.status.done } }

/-- R97. A command that completes with error writes no X register, no H register and not FLAG: its only effect is on
STATUS. `s.status.err = false` is how an issue leaves ERR (R94). -/
def Obligations.ErrorCompletionChangesOnlyStatus : Prop :=
  ∀ (i : Instr) (s t : State), s.status.err = false → exec i s = .next t → t.status.err = true →
    t.status.errcode ≠ .none ∧
    t = { s with status :=
      { s.status with busy := false, done := true, err := true, errcode := t.status.errcode } }

/-! ### Encoding -/

/-- Decode and encode agree: every well-formed instruction, with every operand, decodes from its word. -/
def Obligations.DecodeOfEncode : Prop :=
  ∀ i : Instr, i.wf = true → decode (encode i) = .ok i

/-- R93. For every accepted word, encoding what it decodes to gives the word back, and the word is the sum of its fields in
their places, RSV being 0. -/
def Obligations.EncodeOfDecode : Prop :=
  ∀ (w : Word) (i : Instr), decode w = .ok i →
    encode i = w ∧ i.wf = true ∧
    w.toNat = i.opcode + (rdField w).toNat * 2 ^ 8 + (raField w).toNat * 2 ^ 12 + (rbField w).toNat * 2 ^ 16
      + (rnField w).toNat * 2 ^ 20

/-- R84. The decoder accepts a word exactly when its opcode is in use and its fields are legal; it reads the instruction of a
row exactly when the word matches the row's mask and pattern; at most one row matches any word. -/
def Obligations.AcceptedWordsAreTableRows : Prop :=
  ∀ w : Word,
    ((∃ i, decode w = .ok i) ↔ (1 ≤ opField w ∧ opField w ≤ 7 ∧ LegalFields w)) ∧
    (∀ row ∈ opcodeTable, row.matches w = true ↔ ∃ i, decode w = .ok i ∧ i.opcode = row.op) ∧
    (∀ row ∈ opcodeTable, ∀ row' ∈ opcodeTable, row.matches w = true → row'.matches w = true → row = row')

/-- R85, R86, R192. A command word with a reserved opcode completes with ILL_OP, whatever its other fields; one with an opcode in
use and a field that is not legal completes with ILL_FIELD; neither changes anything but STATUS. The turn is the engine's by the
schedule, or because the schedule is empty; that the engine has it then is the model's choice (notes/assumptions/2.md). -/
def Obligations.IllegalWordCompletesWithItsError : Prop :=
  ∀ (s : State) (rest : List Event), s.status.busy = true →
    s.events = .engine :: rest ∨ (s.events = [] ∧ rest = []) →
    (ReservedOp s.cmdlatch →
      step s = .next { s with
        events := rest
        status := { s.status with busy := false, done := true, err := true, errcode := .illOp } }) ∧
    (¬ ReservedOp s.cmdlatch → ¬ LegalFields s.cmdlatch →
      step s = .next { s with
        events := rest
        status := { s.status with busy := false, done := true, err := true, errcode := .illField } })

/-- The words the spec writes out, one of each command, decode to their instructions, and some it calls illegal to their errors
(R89, R107, R114, R121, R129, R146, and 95_test_vectors.md L2.0). -/
def Obligations.WrittenOutWordsDecode : Prop :=
  decode 0x00021301 = .ok (.montmul 3 1 2 0) ∧ decode 0x00321402 = .ok (.modexp 4 1 2 3) ∧
  decode 0x00062703 = .ok (.gcd 7 2 6) ∧ decode 0x00602504 = .ok (.modinv 5 2 6) ∧
  decode 0x00201305 = .ok (.mrwit 3 1 2) ∧ decode 0x00000006 = .ok .shainit ∧
  decode 0x00000007 = .ok .shacomp ∧ decode 0x00000000 = .error .illOp ∧
  decode 0x01000008 = .error .illOp ∧ decode 0x01000003 = .error .illField ∧
  decode 0x00F00005 = .error .illField ∧ decode 0x00010004 = .error .illField

/-! ### A step -/

/-- R92, R95. With a command in progress whose word decodes, the engine's turn is `exec` of the instruction, the turn taken off
the schedule; with the schedule empty the turn is the engine's; and `withFetchWord` makes the next step such a turn. -/
def Obligations.StepRunsTheDecodedCommand : Prop :=
  (∀ (s : State) (i : Instr), s.status.busy = true → decode s.cmdlatch = .ok i →
    (s.events = [] → step s = exec i s) ∧
    (∀ rest, s.events = .engine :: rest → step s = exec i { s with events := rest })) ∧
  (∀ (s : State) (nbits w : Nat) (i : Instr), decodeTableWord nbits w = some i →
    step (s.withFetchWord nbits w) = exec i { s with
      cmdlatch := tableWord nbits w
      status := { s.status with busy := true, done := false, err := false, errcode := .none } })

/-- R207, R222, R230. With no command in progress the engine takes no step and the state holds; a run that has ended stays ended,
and its observation of X, H, M, STATUS and CTRL stays what it is. -/
def Obligations.IdleEngineHoldsTheState : Prop :=
  ∀ s : State, s.status.busy = false →
    (s.events = [] → step s = .next s) ∧
    (∀ rest, s.events = .engine :: rest → step s = .next { s with events := rest }) ∧
    (s.Ended → ∃ t, step s = .next t ∧ t.Ended ∧ t.observe = s.observe)

/-- R94. A write of any value to CMD with BUSY = 0 issues it: CMDLATCH takes it, DONE, ERR and ERRCODE clear, BUSY sets, OVR and
FLAG stay, and IRQ is low after it. -/
def Obligations.CmdWriteIssues : Prop :=
  ∀ (s : State) (v : Word) (rest : List Event), s.status.busy = false →
    s.events = memWrite s.params 0x00C v :: rest →
    ∃ t, step s = .next t ∧ t.irq = false ∧
      t = { s with
        events := rest
        cmdlatch := v
        status := { s.status with busy := true, done := false, err := false, errcode := .none } }

/-- R199. A write to CMD with BUSY = 1 is dropped: only OVR changes. -/
def Obligations.CmdWriteWhileBusyIsDropped : Prop :=
  ∀ (s : State) (v : Word) (rest : List Event), s.status.busy = true →
    s.events = memWrite s.params 0x00C v :: rest →
    step s = .next { s with events := rest, status := { s.status with ovr := true } }

/-- R33. A write of `v` to STATUS clears DONE if bit 1 is set, ERR and ERRCODE if bit 2 is, OVR if bit 3 is, and does nothing
more; the reserved bits read as 0 after it. -/
def Obligations.StatusWriteClearsByOne : Prop :=
  ∀ (s : State) (v : Word) (rest : List Event), s.events = memWrite s.params 0x008 v :: rest →
    ∃ t, step s = .next t ∧
      t = { s with
        events := rest
        status := { s.status with
          done := if v.getLsbD 1 then false else s.status.done
          err := if v.getLsbD 2 then false else s.status.err
          errcode := if v.getLsbD 2 then .none else s.status.errcode
          ovr := if v.getLsbD 3 then false else s.status.ovr } } ∧
      ∀ k, (5 ≤ k ∧ k ≤ 7) ∨ 12 ≤ k → t.status.toWord.getLsbD k = false

/-- R36, R221. A write to CTRL with bit 1 set clears X, H, M, STATUS, CTRL and CMDLATCH in that step, whatever was in progress and
whatever its other bits; one with bit 1 clear sets IE to bit 0, BUSY or not; SRST reads as 0. -/
def Obligations.CtrlWriteResetsOrSetsIE : Prop :=
  ∀ (s : State) (v : Word) (rest : List Event), s.events = memWrite s.params 0x004 v :: rest →
    (v.getLsbD 1 = true →
      step s = .next { s with
        events := rest
        x := Vector.replicate 8 0
        h := Vector.replicate 8 0
        m := Vector.replicate 16 0
        status := ⟨false, false, false, false, false, .none⟩
        ie := false
        cmdlatch := 0 }) ∧
    (v.getLsbD 1 = false → step s = .next { s with events := rest, ie := v.getLsbD 0 }) ∧
    s.ctrlWord.getLsbD 1 = false

/-- R61. While BUSY = 1 a write to any word of X0..X7, H0..H7 or M0..M15 is ignored, and no STATUS bit is set. -/
def Obligations.DataWritesWhileBusyAreIgnored : Prop :=
  ∀ (s : State) (off : Nat) (v : Word) (rest : List Event), s.params.valid = true → s.status.busy = true →
    ((∃ i, i < 8 ∧ off = 0x100 + 4 * i) ∨ (∃ i, i < 16 ∧ off = 0x140 + 4 * i) ∨
      (∃ i j, i < 8 ∧ j < s.params.nw ∧ off = 0x1000 + 0x400 * i + 4 * j)) →
    s.events = memWrite s.params off v :: rest →
    step s = .next { s with events := rest }

/-- R53. Word `j` of Xi, `j < NW`, at its offset: with BUSY = 0 a read gives the word and a write replaces it and leaves the
other words; for `NW <= j < 256` a read gives 0 and a write is ignored, BUSY or not. -/
def Obligations.XWordReadAndWrite : Prop :=
  ∀ (s : State) (i : Fin 8) (j : Nat) (v : Word) (rest : List Event), s.params.valid = true → j < 256 →
    (j < s.params.nw → s.status.busy = false →
      (s.events = memRead s.params (0x1000 + 0x400 * i + 4 * j) :: rest →
        step s = .next { s with events := rest, reads := xWord s.x[i] j :: s.reads }) ∧
      (s.events = memWrite s.params (0x1000 + 0x400 * i + 4 * j) v :: rest →
        ∃ t, step s = .next t ∧
          t = { s with
            events := rest
            x := s.x.set i (s.x[i] - (xWord s.x[i] j).toNat * 2 ^ (32 * j) + v.toNat * 2 ^ (32 * j)) } ∧
          ∀ k, xWord t.x[i] k = if k = j then v else xWord s.x[i] k)) ∧
    (s.params.nw ≤ j →
      (s.events = memRead s.params (0x1000 + 0x400 * i + 4 * j) :: rest →
        step s = .next { s with events := rest, reads := 0 :: s.reads }) ∧
      (s.events = memWrite s.params (0x1000 + 0x400 * i + 4 * j) v :: rest →
        step s = .next { s with events := rest }))

/-- R23, R24, R51. With BUSY = 0 the host reads and writes each of H0..H7 and M0..M15 at its offset, and nothing else
changes. -/
def Obligations.HashAndMessageReadAndWrite : Prop :=
  ∀ (s : State) (v : Word) (rest : List Event), s.status.busy = false →
    (∀ i : Fin 8,
      (s.events = memRead s.params (0x100 + 4 * i) :: rest →
        step s = .next { s with events := rest, reads := s.h[i] :: s.reads }) ∧
      (s.events = memWrite s.params (0x100 + 4 * i) v :: rest →
        step s = .next { s with events := rest, h := s.h.set i v })) ∧
    (∀ i : Fin 16,
      (s.events = memRead s.params (0x140 + 4 * i) :: rest →
        step s = .next { s with events := rest, reads := s.m[i] :: s.reads }) ∧
      (s.events = memWrite s.params (0x140 + 4 * i) v :: rest →
        step s = .next { s with events := rest, m := s.m.set i v }))

/-- R57. A read of a reserved offset of the map gives 0 and a write to one, or to INFO, is ignored; neither sets a STATUS
bit. -/
def Obligations.ReservedOffsetsReadZero : Prop :=
  ∀ (s : State) (off : Nat) (v : Word) (rest : List Event), off % 4 = 0 →
    ((0x010 ≤ off ∧ off < 0x100) ∨ (0x120 ≤ off ∧ off < 0x140) ∨ (0x180 ≤ off ∧ off < 0x1000) ∨
        (0x3000 ≤ off ∧ off < 0x4000) →
      (s.events = memRead s.params off :: rest →
        step s = .next { s with events := rest, reads := 0 :: s.reads }) ∧
      (s.events = memWrite s.params off v :: rest → step s = .next { s with events := rest })) ∧
    (s.events = memWrite s.params 0x000 v :: rest → step s = .next { s with events := rest })

/-- R58. A read of any aligned offset of the window changes nothing of the block, and two reads of one offset in a row give the
same value, unless the running command writes the register there. Which registers those are while a rejected word or one that will
fail is in progress (`inFlight`) is the model's deduction (notes/assumptions/9.md). -/
def Obligations.ReadsHaveNoSideEffect : Prop :=
  ∀ (s : State) (off : Nat) (rest : List Event), off % 4 = 0 → off < 0x4000 →
    (s.events = memRead s.params off :: rest →
      ∃ t, step s = .next t ∧ s.SameBlock t ∧ t.events = rest) ∧
    (s.events = memRead s.params off :: memRead s.params off :: rest →
      s.inFlight (windowReg s.params.nw off) = false →
      ∃ t v, Host.Core.run Sys2Proof.core 2 s = .next t ∧
        t = { s with events := rest, reads := v :: v :: s.reads })

/-- R62. While BUSY = 1 a read of a word of Xd, or of H0..H7 for SHAINIT and SHACOMP, gives a fresh value under no law (the form of
it: notes/assumptions/7.md); a read of any other register, or of any register once BUSY = 0, gives its contents. That a word the
decoder rejects writes no register, so that every read gives the contents while it is in progress, and that a decodable one has its
destination in flight even where it will fail, is the model's deduction (notes/assumptions/9.md). -/
def Obligations.BusyReadOfDestinationIsFree : Prop :=
  ∀ (s : State) (off : Nat) (rest : List Event), s.params.valid = true → off % 4 = 0 → off < 0x4000 →
    s.events = memRead s.params off :: rest →
    (∀ i, s.status.busy = true → decode s.cmdlatch = .ok i →
      ((∃ rd j, destX i = some rd ∧ j < s.params.nw ∧ off = 0x1000 + 0x400 * rd.toNat + 4 * j) ∨
        ((i = .shainit ∨ i = .shacomp) ∧ 0x100 ≤ off ∧ off < 0x120) →
        step s = .next { s with
          events := rest, reads := Config.freeWord s.draws :: s.reads, draws := s.draws + 1 }) ∧
      (¬ (∃ rd j, destX i = some rd ∧ j < s.params.nw ∧ off = 0x1000 + 0x400 * rd.toNat + 4 * j) →
        ¬ ((i = .shainit ∨ i = .shacomp) ∧ 0x100 ≤ off ∧ off < 0x120) →
        step s = .next { s with
          events := rest, reads := s.peek (windowReg s.params.nw off) :: s.reads })) ∧
    (∀ c, s.status.busy = true → decode s.cmdlatch = .error c →
      step s = .next { s with events := rest, reads := s.peek (windowReg s.params.nw off) :: s.reads }) ∧
    (s.status.busy = false →
      step s = .next { s with events := rest, reads := s.peek (windowReg s.params.nw off) :: s.reads })

/-- R52. An access that is not 32 bits wide, or in the window and not at an offset that is a multiple of 4, is refused. That one of
another width is refused outside the window too, and not a fault, is the model's order of checks (notes/assumptions/6.md). -/
def Obligations.OddAccessesAreRefused : Prop :=
  ∀ (s : State) (a : Access) (rest : List Event), s.events = .access a :: rest →
    a.width ≠ 32 ∨ (inWindow s.params a.addr = true ∧ (a.addr - s.params.base) % 4 ≠ 0) →
    ∃ r, step s = .refused r

/-- R50, R205. An access by a host other than host 0 is refused, and one of host 0's, 32 bits wide, below BASE or above BASE + 0x3FFF faults:
the model's way to say that they are no accesses of the one host to the block (notes/assumptions/5.md and 6.md). -/
def Obligations.ForeignAccessesStop : Prop :=
  ∀ (s : State) (a : Access) (rest : List Event), s.events = .access a :: rest →
    (a.host ≠ 0 → step s = .refused (.secondHost a.host)) ∧
    (a.host = 0 → a.width = 32 → a.addr < s.params.base ∨ s.params.base + 0x4000 ≤ a.addr →
      step s = .fault (.outsideWindow a.addr))

/-- R26, R34, R38, R190. What the host reads of STATUS, CTRL and CMD: the STATUS bits in their places, in bits 11:8 the number R190
gives the error (NONE 0, ILL_OP 1, ILL_FIELD 2, MOD_ZERO 3, MOD_EVEN 4, NO_INVERSE 5, N_SMALL 6), IE in CTRL's bit 0, every
other bit 0, and 0 for CMD. -/
def Obligations.StatusControlAndCmdReads : Prop :=
  ∀ (s : State) (rest : List Event),
    (s.events = memRead s.params 0x008 :: rest →
      ∃ w : Word, step s = .next { s with events := rest, reads := w :: s.reads } ∧
        w.getLsbD 0 = s.status.busy ∧ w.getLsbD 1 = s.status.done ∧ w.getLsbD 2 = s.status.err ∧
        w.getLsbD 3 = s.status.ovr ∧ w.getLsbD 4 = s.status.flag ∧
        (s.status.errcode, (w.extractLsb' 8 4).toNat) ∈
          [(.none, 0), (.illOp, 1), (.illField, 2), (.modZero, 3), (.modEven, 4), (.noInverse, 5), (.nSmall, 6)] ∧
        w.extractLsb' 5 3 = 0 ∧ w.extractLsb' 12 20 = 0) ∧
    (s.events = memRead s.params 0x004 :: rest →
      ∃ w : Word, step s = .next { s with events := rest, reads := w :: s.reads } ∧
        w.getLsbD 0 = s.ie ∧ w.extractLsb' 1 31 = 0) ∧
    (s.events = memRead s.params 0x00C :: rest →
      step s = .next { s with events := rest, reads := 0 :: s.reads })

/-- R37. INFO reads as NW in 15:0, 8 in 23:16 and 0x07 in 31:24, in every state, so as 0x07080040 for OPW = 2048; writes to it
are ignored. -/
def Obligations.InfoIsConstant : Prop :=
  ∀ (s : State) (v : Word) (rest : List Event), s.params.valid = true →
    (s.events = memRead s.params 0x000 :: rest →
      ∃ w : Word, step s = .next { s with events := rest, reads := w :: s.reads } ∧
        (w.extractLsb' 0 16).toNat = s.params.nw ∧ w.extractLsb' 16 8 = 8 ∧ w.extractLsb' 24 8 = 7 ∧
        (s.params.opw = 2048 → w = 0x07080040)) ∧
    (s.events = memWrite s.params 0x000 v :: rest → step s = .next { s with events := rest })

/-- R39, R195. IRQ is IE AND DONE: a completion, with error or not, leaves it at IE; an issue or a write of 1 to STATUS bit 1
leaves it low; a dropped command does not move it. -/
def Obligations.IrqFollowsEnableAndDone : Prop :=
  (∀ s : State, s.irq = (s.ie && s.status.done)) ∧
  (∀ (i : Instr) (s t : State), exec i s = .next t → t.irq = s.ie) ∧
  (∀ (s : State) (c : ErrCode), (s.raiseCmdError c).irq = s.ie) ∧
  (∀ (s : State) (v : Word), s.status.busy = false → (s.hostWrite .cmd v).irq = false) ∧
  (∀ (s : State) (v : Word), s.status.busy = true → (s.hostWrite .cmd v).irq = s.irq) ∧
  (∀ (s : State) (v : Word), v.getLsbD 1 = true → (s.hostWrite .status v).irq = false)

/-! ### Reset and invariants -/

/-- R42, R220. After power-on reset every register is 0, no command is in progress, INFO is its constant and IRQ is low. -/
def Obligations.ResetClearsEveryRegister : Prop :=
  (∀ i : Fin 8, State.reset.x[i] = 0) ∧ (∀ i : Fin 8, State.reset.h[i] = 0) ∧
  (∀ i : Fin 16, State.reset.m[i] = 0) ∧ State.reset.status.toWord = 0 ∧ State.reset.status.busy = false ∧
  State.reset.ctrlWord = 0 ∧ State.reset.cmdlatch = 0 ∧ State.reset.irq = false ∧
  State.reset.peek .info = infoWord State.reset.params

/-- The invariant holds at reset, of every chip with parameters in the spec's bounds and of the one left open; and R222: the
reset state is an end state. -/
def Obligations.ResetMeetsInvariant : Prop :=
  (∀ p : Params, p.valid = true → (State.resetFor p).Inv) ∧ State.reset.Inv ∧ State.reset.Ended

/-- R21, R29, R30, R100. Every step keeps the invariant: parameters in bounds, every big-number register below `2^OPW` (so no result
overflows), STATUS coherent. -/
def Obligations.StepKeepsInvariant : Prop :=
  ∀ s t : State, s.Inv → step s = .next t → t.Inv

/-! ### What can change a register, over every step -/

/-- R32, R143. FLAG changes only where an MRWIT completes without error, and then RD holds the same value, or by soft reset. -/
def Obligations.FlagChangesOnlyByMrwit : Prop :=
  ∀ s t : State, step s = .next t → t.status.flag ≠ s.status.flag →
    (s.EngineCompletes ∧ ∃ rd ra rn, decode s.cmdlatch = .ok (.mrwit rd ra rn) ∧ 1 < s.readX rn ∧
      t.readX rd = t.status.flag.toNat) ∨
    s.HostResets

/-- R24. A message register changes only by a host write to it while BUSY = 0, or by soft reset: the engine never writes M. -/
def Obligations.MessageChangesOnlyByHost : Prop :=
  ∀ (s t : State) (k : Fin 16), step s = .next t → t.m[k] ≠ s.m[k] →
    (s.status.busy = false ∧ ∃ v, s.HostWrites (.m k) v) ∨ s.HostResets

/-- R22, R61. A big-number register changes only by a host write to a word of it while BUSY = 0, by the completion of a command
whose RD it is, or by soft reset. -/
def Obligations.XChangesOnlyByHostOrResult : Prop :=
  ∀ (s t : State) (k : Fin 8), step s = .next t → t.x[k] ≠ s.x[k] →
    (s.status.busy = false ∧ ∃ j v, s.HostWrites (.x k j) v) ∨
    (s.EngineCompletes ∧ ∃ i rd, decode s.cmdlatch = .ok i ∧ destX i = some rd ∧ rd.toNat = k.val) ∨
    s.HostResets

/-- R23, R61. A hash register changes only by a host write to it while BUSY = 0, by the completion of SHAINIT or SHACOMP, or by
soft reset. -/
def Obligations.HashChangesOnlyByHostOrSha : Prop :=
  ∀ (s t : State) (k : Fin 8), step s = .next t → t.h[k] ≠ s.h[k] →
    (s.status.busy = false ∧ ∃ v, s.HostWrites (.h k) v) ∨
    (s.EngineCompletes ∧ (decode s.cmdlatch = .ok .shainit ∨ decode s.cmdlatch = .ok .shacomp)) ∨
    s.HostResets

/-- R40, R67. CMDLATCH changes only by an issue, which gives it the word written, or by soft reset: nothing changes the command
in progress. -/
def Obligations.CmdlatchChangesOnlyByIssue : Prop :=
  ∀ s t : State, step s = .next t → t.cmdlatch ≠ s.cmdlatch →
    (s.status.busy = false ∧ ∃ v, s.HostWrites .cmd v ∧ t.cmdlatch = v) ∨ s.HostResets

/-- R27, R64. BUSY is set only by an issue, and cleared only by a completion, which sets DONE in the same step, or by soft
reset. -/
def Obligations.BusyRisesByIssueFallsByCompletion : Prop :=
  ∀ s t : State, step s = .next t →
    (s.status.busy = false → t.status.busy = true → ∃ v, s.HostWrites .cmd v ∧ t.cmdlatch = v) ∧
    (s.status.busy = true → t.status.busy = false →
      (s.EngineCompletes ∧ t.status.done = true) ∨ s.HostResets)

/-! ### Safety and liveness -/

/-- R191, R196. From a state whose scheduled accesses are all legal a step always answers a next state, and that state is again
such a state: no command, no error and no access of the window stops the block. -/
def Obligations.SafeRunsNeverStop : Prop :=
  ∀ s : State, s.Safe → ∃ t, step s = .next t ∧ t.Safe

/-- R9, R229, R230. A run whose accesses are all legal ends, one step after its last turn at the latest: every command
completes. The engine's turn after the schedule is the model's form of weak fairness (notes/assumptions/2.md). -/
def Obligations.SafeRunsEnd : Prop :=
  ∀ s : State, s.Safe →
    ∃ t : State, Host.Core.run Sys2Proof.core (s.events.length + 1) s = .next t ∧ t.events = [] ∧ t.Ended

/-- R200. A CMD write and a completion, and a STATUS acknowledge and a completion, in either order: the spec's outcomes. -/
def Obligations.RacesHaveBothOutcomes : Prop :=
  ∀ (s : State) (v : Word), s.status.busy = true →
    (s.events = [.engine, memWrite s.params 0x00C v] →
      ∃ t, Host.Core.run Sys2Proof.core 2 s = .next t ∧
        t.status.busy = true ∧ t.cmdlatch = v ∧ t.status.ovr = s.status.ovr) ∧
    (s.events = [memWrite s.params 0x00C v, .engine] →
      ∃ t, Host.Core.run Sys2Proof.core 2 s = .next t ∧
        t.status.busy = false ∧ t.status.done = true ∧ t.cmdlatch = s.cmdlatch ∧ t.status.ovr = true) ∧
    (v.getLsbD 1 = true → s.events = [memWrite s.params 0x008 v, .engine] →
      ∃ t, Host.Core.run Sys2Proof.core 2 s = .next t ∧ t.status.busy = false ∧ t.status.done = true) ∧
    (v.getLsbD 1 = true → s.events = [.engine, memWrite s.params 0x008 v] →
      ∃ t, Host.Core.run Sys2Proof.core 2 s = .next t ∧ t.status.busy = false ∧ t.status.done = false)

/-- R59. Writing the same value twice to X, H, M or CTRL without SRST has the effect of writing it once. -/
def Obligations.DataWritesAreIdempotent : Prop :=
  ∀ (s : State) (r : WindowReg) (v : Word),
    ((∃ i j, r = .x i j) ∨ (∃ i, r = .h i) ∨ (∃ i, r = .m i) ∨ (r = .ctrl ∧ v.getLsbD 1 = false)) →
    (s.hostWrite r v).hostWrite r v = s.hostWrite r v

/-! ### Whole-command properties -/

/-- R14. A command is a pure function of the registers it reads: two states that agree on OPW, on the sources of the command and,
for SHACOMP, on H and M, complete with the same error or the same result. The ERR premises are how an issue leaves ERR and
ERRCODE (R94). -/
def Obligations.CommandsArePureFunctions : Prop :=
  ∀ (i : Instr) (s t s' t' : State), s.params.opw = s'.params.opw →
    (∀ r ∈ i.fields.tail, s.readX r = s'.readX r) → (i = .shacomp → s.h = s'.h ∧ s.m = s'.m) →
    s.status.err = false → s.status.errcode = .none → s'.status.err = false → s'.status.errcode = .none →
    exec i s = .next t → exec i s' = .next t' →
    t.status.err = t'.status.err ∧ t.status.errcode = t'.status.errcode ∧
    (t.status.err = false →
      (∀ rd, destX i = some rd → t.readX rd = t'.readX rd) ∧
      (∀ rd ra rn, i = .mrwit rd ra rn → t.status.flag = t'.status.flag) ∧
      (destH i = true → t.h = t'.h))

/-- R6, R130. Only MONTMUL's result depends on OPW: every other command does the same on a chip with other parameters. -/
def Obligations.OnlyMontmulDependsOnOpw : Prop :=
  ∀ (i : Instr) (s t : State) (p : Params), (∀ rd ra rb rn, i ≠ .montmul rd ra rb rn) →
    exec i s = .next t → exec i { s with params := p } = .next { t with params := p }

/-- R54, R201. No step depends on BUS_BYTE_ORDER or IRQ_LINE: a chip that differs in them only makes the same step.
The values they can have are the model's choice (notes/assumptions/10.md). -/
def Obligations.WiringIsUnobservable : Prop :=
  ∀ (s t : State) (b : ByteOrder) (l : Nat), step s = .next t →
    step { s with params := { s.params with busByteOrder := b, irqLine := l } } =
      .next { t with params := { t.params with busByteOrder := b, irqLine := l } }

/-- R127. The word-serial REDC gives MONTMUL's value for odd `n`, on operands of `nw` words, and before its last reduction it is
below `R + n`. Its closing loop of subtractions is a remainder in the model (notes/assumptions/13.md). -/
def Obligations.RedcEqualsMontgomeryProduct : Prop :=
  ∀ nw a b n : Nat, n % 2 = 1 → a < 2 ^ (32 * nw) → b < 2 ^ (32 * nw) →
    redc nw a b n = montProduct (32 * nw) a b n ∧
    (List.range nw).foldl (redcStep a b n) 0 < 2 ^ (32 * nw) + n

/-- R128. Converting two operands in with `R^2 mod n`, multiplying, and converting out with 1 multiplies modulo odd `n`. -/
def Obligations.MontgomeryConversionMultiplies : Prop :=
  ∀ opw v w n : Nat, n % 2 = 1 →
    montProduct opw
      (montProduct opw (montProduct opw v (2 ^ (2 * opw) % n) n) (montProduct opw w (2 ^ (2 * opw) % n) n) n) 1 n
      = v * w % n

/-- R145. For a prime candidate and a base that is not a multiple of it, MRWIT writes 0 to RD and FLAG: a 1 for such a base
shows the candidate composite. -/
def Obligations.PrimesHaveNoWitness : Prop :=
  ∀ (s : State) (rd ra rn : RegField), (Instr.mrwit rd ra rn).wf = true → Nat.Prime (s.readX rn) →
    s.readX ra % s.readX rn ≠ 0 →
    exec (.mrwit rd ra rn) s = .next { s with
      x := s.x.setIfInBounds rd.toNat 0
      status := { s.status with busy := false, done := true, flag := false } }

/-- R144. For `n > 1` the witness bit depends only on the base modulo `n`; it is 1 for a base that is 0 modulo `n`, and 0 for one
that is 1 or `n - 1`. -/
def Obligations.WitnessCornerBases : Prop :=
  ∀ n a : Nat, 1 < n →
    isWitness n (a + n) = isWitness n a ∧ (a % n = 0 → isWitness n a = true) ∧
    (a % n = 1 ∨ a % n = n - 1 → isWitness n a = false)

/-- R160 to R163. Bit by bit: ROTR moves bit `(i + k) mod 32` to bit `i`, SHR moves bit `i + k` there or 0, Ch chooses by `e`, Maj
is the majority; Σ0, Σ1, σ0 and σ1 are the XOR of rotations, and for σ0 and σ1 of a last shift, by the rules' amounts. -/
def Obligations.ShaWordOperationsBitwise : Prop :=
  (∀ (x : Word) (k i : Nat), 0 < k → k < 32 → i < 32 →
    (rotr x k).getLsbD i = x.getLsbD ((i + k) % 32) ∧
    (shr x k).getLsbD i = (decide (i + k < 32) && x.getLsbD (i + k))) ∧
  (∀ (a b c : Word) (i : Nat), i < 32 →
    (ch a b c).getLsbD i = (if a.getLsbD i then b.getLsbD i else c.getLsbD i) ∧
    (maj a b c).getLsbD i =
      ((a.getLsbD i && b.getLsbD i) || (a.getLsbD i && c.getLsbD i) || (b.getLsbD i && c.getLsbD i))) ∧
  (∀ x : Word,
    bigSigma0 x = rotr x 2 ^^^ rotr x 13 ^^^ rotr x 22 ∧
    bigSigma1 x = rotr x 6 ^^^ rotr x 11 ^^^ rotr x 25 ∧
    smallSigma0 x = rotr x 7 ^^^ rotr x 18 ^^^ shr x 3 ∧
    smallSigma1 x = rotr x 17 ^^^ rotr x 19 ^^^ shr x 10)

/-- R164, R165. `K[t]` is `floor(cbrt(p) * 2^32) mod 2^32` for the prime number `t`, counted from 0, and `IV[i]` is
`floor(sqrt(p) * 2^32) mod 2^32`. -/
def Obligations.ShaConstantsAreRoots : Prop :=
  roundConstants.length = 64 ∧
  (∀ t, t < 64 → ∃ c, c ^ 3 ≤ Nat.nth Nat.Prime t * 2 ^ 96 ∧ Nat.nth Nat.Prime t * 2 ^ 96 < (c + 1) ^ 3 ∧
    (roundConstants.getD t 0).toNat = c % 2 ^ 32) ∧
  (∀ i : Fin 8, ∃ c, c ^ 2 ≤ Nat.nth Nat.Prime i * 2 ^ 64 ∧ Nat.nth Nat.Prime i * 2 ^ 64 < (c + 1) ^ 2 ∧
    initialHash[i].toNat = c % 2 ^ 32)

/-- R180. Compressing blocks one after another leaves in H the fold of `compress` over them: nothing else is kept between
blocks. `states k` is the state before block `k` is written to M. -/
def Obligations.ChainedBlocksFoldCompress : Prop :=
  ∀ (blocks : List (Vector Word 16)) (states : Nat → State),
    (∀ k (hk : k < blocks.length), exec .shacomp { states k with m := blocks[k] } = .next (states (k + 1))) →
    (states blocks.length).h = blocks.foldl compress (states 0).h

/-- R90. `wrx xI, V`, whose accesses stand next in the schedule, sets Xi to `V` in NW steps and changes nothing else. -/
def Obligations.WrxLoadsTheRegister : Prop :=
  ∀ (s : State) (i : Fin 8) (V : Nat) (rest : List Event), s.Inv → V < 2 ^ s.params.opw →
    s.status.busy = false → s.events = wrx s.params i V ++ rest →
    Host.Core.run Sys2Proof.core s.params.nw s = .next { s with events := rest, x := s.x.set i V }

/-- R13, R90. `rdx xI` answers, in NW steps that change nothing of the block, the NW words whose weighted sum is Xi. -/
def Obligations.RdxReadsTheRegister : Prop :=
  ∀ (s : State) (i : Fin 8) (rest : List Event), s.Inv → s.status.busy = false →
    s.events = rdx s.params i ++ rest →
    ∃ words, words.length = s.params.nw ∧ rdxValue words = s.x[i] ∧
      Host.Core.run Sys2Proof.core s.params.nw s = .next { s with events := rest, reads := words.reverse ++ s.reads }
end

