-- ==== Sys2Proof/Laws/Arith.lean ====
section
/-!
SUPPORT. What the integer functions of Machine/Arith.lean compute, each said once in the terms of its rule, so that no proof
about a command unfolds a loop.
-/

namespace Sys2Proof.Machine

/-! ### Square-and-multiply (R105) computes the power (R102) -/

/-- The loop multiplies `p ^ e` into the product, when the fuel covers the bits of `e`. -/
theorem powModLoop_eq (n : Nat) :
    ∀ k e p r : Nat, e < 2 ^ k → r % n = r → powModLoop n k e p r = r * p ^ e % n
  | 0, e, p, r, he, hr => by
    have : e = 0 := by simpa using he
    simp [powModLoop, this, hr]
  | k + 1, e, p, r, he, hr => by
    have hhalf : e / 2 < 2 ^ k := by omega
    have hr' : (if e % 2 = 1 then r * p % n else r) % n = if e % 2 = 1 then r * p % n else r := by
      split <;> simp [hr]
    rw [powModLoop, powModLoop_eq n k _ _ _ hhalf hr', Nat.mul_mod, ← Nat.pow_mod, ← pow_two, ← pow_mul]
    conv_rhs => rw [← Nat.div_add_mod e 2, pow_add]
    rcases Nat.mod_two_eq_zero_or_one e with h | h
    · rw [h, if_neg (by decide), pow_zero, mul_one, ← Nat.mul_mod]
    · rw [h, if_pos rfl, pow_one, Nat.mod_mod, ← Nat.mul_mod]
      ring_nf

/-- MODEXP's value: `(b ^ e) mod n` (R102). -/
theorem powMod_eq (b e n : Nat) : powMod b e n = b ^ e % n := by
  rw [powMod, powModLoop_eq n _ _ _ _ Nat.lt_log2_self (Nat.mod_mod 1 n), Nat.mul_mod, Nat.mod_mod,
    ← Nat.pow_mod, ← Nat.mul_mod, one_mul]

/-! ### Euclid (R116) -/

/-- With enough fuel R116's loop is the greatest common divisor. -/
theorem euclidLoop_eq : ∀ k a b : Nat, b < k → euclidLoop k a b = Nat.gcd a b
  | 0, _, _, h => absurd h (Nat.not_lt_zero _)
  | k + 1, a, b, h => by
    unfold euclidLoop
    split
    · next hb => simp [hb]
    · next hb =>
      have := Nat.mod_lt a (Nat.pos_of_ne_zero hb)
      rw [euclidLoop_eq k b (a % b) (by omega), Nat.gcd_comm b, ← Nat.gcd_rec, Nat.gcd_comm]

/-- GCD's value: the greatest common divisor, 0 when both operands are 0 (R116). -/
theorem euclid_eq_gcd (a b : Nat) : euclid a b = Nat.gcd a b := euclidLoop_eq _ a b (Nat.lt_succ_self b)

/-! ### Extended Euclid (R112) -/

/-- R112's loop ends at the greatest common divisor, and keeps `t0 * a = r0` modulo `n`. -/
theorem egcdLoop_spec (n a : Int) :
    ∀ (k r0 r1 : Nat) (t0 t1 : Int), r1 < k → n ∣ t0 * a - r0 → n ∣ t1 * a - r1 →
      (egcdLoop k r0 r1 t0 t1).1 = Nat.gcd r0 r1 ∧
        n ∣ (egcdLoop k r0 r1 t0 t1).2 * a - ((egcdLoop k r0 r1 t0 t1).1 : Nat)
  | 0, _, _, _, _, h, _, _ => absurd h (Nat.not_lt_zero _)
  | k + 1, r0, r1, t0, t1, h, h0, h1 => by
    unfold egcdLoop
    split
    · next hz => exact ⟨by simp [hz], h0⟩
    · next hz =>
      have hlt := Nat.mod_lt r0 (Nat.pos_of_ne_zero hz)
      have hstep : n ∣ (t0 - (r0 / r1 : Nat) * t1) * a - (r0 % r1 : Nat) := by
        have hr : ((r0 % r1 : Nat) : Int) = r0 - (r0 / r1 : Nat) * (r1 : Int) := by
          have := congrArg (Nat.cast (R := Int)) (Nat.div_add_mod r0 r1)
          push_cast at this ⊢
          linarith
        rw [hr]
        have := dvd_sub h0 (Dvd.dvd.mul_left h1 ((r0 / r1 : Nat) : Int))
        have he : t0 * a - r0 - (r0 / r1 : Nat) * (t1 * a - r1)
            = (t0 - (r0 / r1 : Nat) * t1) * a - (r0 - (r0 / r1 : Nat) * (r1 : Int)) := by ring
        exact he ▸ this
      have ih := egcdLoop_spec n a k r1 (r0 % r1) t1 _ (by omega) h1 hstep
      rwa [Nat.gcd_comm r1, ← Nat.gcd_rec, Nat.gcd_comm r1] at ih

/-- The loop's second pair starts in the relation it keeps. -/
theorem egcdLoop_start (n a : Nat) : (n : Int) ∣ 1 * (a : Int) - ((a % n : Nat) : Int) := by
  rw [one_mul, Int.natCast_mod]
  exact Int.dvd_self_sub_emod

/-- R112 finds an inverse exactly when the greatest common divisor is 1. -/
theorem modInv?_eq_none_iff (a n : Nat) : modInv? a n = none ↔ Nat.gcd a n ≠ 1 := by
  rcases Nat.eq_zero_or_pos n with rfl | hn
  · simp [modInv?, egcdLoop]
    split <;> simp_all
  have hs := (egcdLoop_spec n a (n + 1) n (a % n) 0 1 (by have := Nat.mod_lt a hn; omega) (by simp)
    (egcdLoop_start n a)).1
  rw [Nat.gcd_comm n, ← Nat.gcd_rec, Nat.gcd_comm] at hs
  unfold modInv?
  simp only [hs]
  split <;> simp_all

/-- MODINV's value: a number in `[0, n)` whose product with `a` is 1 modulo `n` (R109). -/
theorem modInv?_spec (a n y : Nat) (hn : n ≠ 0) (h : modInv? a n = some y) :
    y < n ∧ (a * y) % n = 1 % n := by
  have hpos := Nat.pos_of_ne_zero hn
  have hs := egcdLoop_spec n a (n + 1) n (a % n) 0 1 (by have := Nat.mod_lt a hpos; omega) (by simp)
    (egcdLoop_start n a)
  unfold modInv? at h
  generalize egcdLoop (n + 1) n (a % n) 0 1 = gt at h hs
  obtain ⟨g, t⟩ := gt
  by_cases hg : g = 1
  · subst hg
    simp only [if_pos, Option.some.injEq] at h
    have hnonneg := Int.emod_nonneg t (by exact_mod_cast hn : (n : Int) ≠ 0)
    have hlt := Int.emod_lt_of_pos t (by exact_mod_cast hpos : (0 : Int) < n)
    have hy : (y : Int) = t % n := by rw [← h]; exact Int.toNat_of_nonneg hnonneg
    refine ⟨by omega, ?_⟩
    have hmod : ((a * y : Nat) : Int) ≡ ((1 : Nat) : Int) [ZMOD n] := by
      push_cast
      rw [hy]
      calc (a : Int) * (t % n) ≡ a * t [ZMOD n] := (Int.mod_modEq t n).mul_left a
        _ ≡ 1 [ZMOD n] := by
          have := hs.2
          rw [mul_comm]
          exact (Int.modEq_iff_dvd.mpr (by simpa using this)).symm
    exact (Int.natCast_modEq_iff.mp hmod)
  · simp [hg] at h

/-- Two inverses below `n` are equal: the value of R109 is unique. -/
theorem inverse_unique (a n y z : Nat) (hy : y < n) (hz : z < n) (hay : (a * y) % n = 1 % n)
    (haz : (a * z) % n = 1 % n) : y = z := by
  have h1 : a * y ≡ 1 [MOD n] := hay
  have h2 : a * z ≡ 1 [MOD n] := haz
  have key : y ≡ z [MOD n] := by
    calc y ≡ (a * z) * y [MOD n] := by simpa using (h2.symm.mul_right y)
      _ ≡ (a * y) * z [MOD n] := by rw [mul_right_comm]
      _ ≡ z [MOD n] := by simpa using h1.mul_right z
  exact Nat.ModEq.eq_of_lt_of_lt key hy hz

/-! ### Montgomery product (R123, R124) -/

/-- The radix has an inverse modulo every odd `n` (R123). -/
theorem rinv_spec (opw n : Nat) (hn : n % 2 = 1) : rinv opw n < n ∧ (2 ^ opw * rinv opw n) % n = 1 % n := by
  have hco : Nat.gcd (2 ^ opw) n = 1 :=
    Nat.Coprime.pow_left opw (Nat.coprime_two_left.mpr (Nat.odd_iff.mpr hn))
  cases hm : modInv? (2 ^ opw) n with
  | none => exact absurd hco ((modInv?_eq_none_iff _ _).mp hm)
  | some y => simpa [rinv, hm] using modInv?_spec _ n y (by omega) hm

/-- MONTMUL's value for odd `n`: below `n`, and times the radix it is the product modulo `n` (R124). -/
theorem montProduct_spec (opw a b n : Nat) (hn : n % 2 = 1) :
    montProduct opw a b n < n ∧ montProduct opw a b n * 2 ^ opw ≡ a * b [MOD n] := by
  refine ⟨Nat.mod_lt _ (by omega), ?_⟩
  have hr : 2 ^ opw * rinv opw n ≡ 1 [MOD n] := (rinv_spec opw n hn).2
  calc montProduct opw a b n * 2 ^ opw ≡ a * b * rinv opw n * 2 ^ opw [MOD n] :=
        (Nat.mod_modEq _ n).mul_right _
    _ = a * b * (2 ^ opw * rinv opw n) := by ring
    _ ≡ a * b [MOD n] := by simpa using hr.mul_left (a * b)

/-! ### Miller–Rabin (R140, R142) -/

/-- The halving loop keeps `2^s * d` and ends at an odd `d`, when the fuel covers the bits of `d`. -/
theorem decomposeLoop_spec :
    ∀ k s d : Nat, d ≠ 0 → d < 2 ^ k →
      (decomposeLoop k s d).2 % 2 = 1 ∧ 2 ^ (decomposeLoop k s d).1 * (decomposeLoop k s d).2 = 2 ^ s * d
  | 0, _, d, h0, h => by simp at h; omega
  | k + 1, s, d, h0, h => by
    unfold decomposeLoop
    split
    · next he =>
      obtain ⟨hodd, hprod⟩ := decomposeLoop_spec k (s + 1) (d / 2) (by omega) (by omega)
      refine ⟨hodd, hprod.trans ?_⟩
      rw [pow_succ, mul_assoc, Nat.mul_div_cancel' (Nat.dvd_of_mod_eq_zero he)]
    · next he => exact ⟨by omega, rfl⟩

/-- `decompose(n)` for `n > 1`: `n - 1 = 2^s * d` with `d` odd (R140). -/
theorem decompose_spec (n : Nat) (hn : 1 < n) :
    (decompose n).2 % 2 = 1 ∧ 2 ^ (decompose n).1 * (decompose n).2 = n - 1 := by
  have := decomposeLoop_spec (n.log2 + 1) 0 (n - 1) (by omega)
    (by have := Nat.lt_log2_self (n := n); omega)
  simpa [decompose] using this

/-- The two parts of R140 are determined by `n`. -/
theorem decompose_unique (s d s' d' : Nat) (hd : d % 2 = 1) (hd' : d' % 2 = 1)
    (h : 2 ^ s * d = 2 ^ s' * d') : s = s' ∧ d = d' := by
  induction s generalizing s' with
  | zero =>
    cases s' with
    | zero => simpa using h
    | succ k => rw [pow_succ, mul_right_comm] at h; omega
  | succ k ih =>
    cases s' with
    | zero => rw [pow_succ, mul_right_comm] at h; omega
    | succ k' =>
      have h' : 2 ^ k * d = 2 ^ k' * d' := by
        rw [pow_succ, pow_succ, mul_right_comm, mul_right_comm (2 ^ k')] at h; omega
      exact (ih k' h').imp (congrArg (· + 1)) id

/-- The squaring loop finds `n - 1` exactly when one of its squarings gives it (R142). -/
theorem reachesMinusOne_iff (n : Nat) :
    ∀ k x : Nat, reachesMinusOne n k x = true ↔ ∃ j, 1 ≤ j ∧ j ≤ k ∧ x ^ 2 ^ j % n = n - 1
  | 0, x => by simp [reachesMinusOne]
  | k + 1, x => by
    have hpow : ∀ j, (x * x % n) ^ 2 ^ j % n = x ^ 2 ^ (j + 1) % n := fun j => by
      rw [← Nat.pow_mod, ← pow_two, ← pow_mul, ← pow_succ']
    rw [reachesMinusOne]
    by_cases hx : x * x % n = n - 1
    · simp only [hx, if_true, true_iff]
      exact ⟨1, le_refl _, by omega, by simpa [pow_two] using hx⟩
    · simp only [hx, if_false, reachesMinusOne_iff n k, hpow]
      constructor
      · rintro ⟨j, h1, hk, h⟩
        exact ⟨j + 1, by omega, by omega, h⟩
      · rintro ⟨j, h1, hk, h⟩
        obtain ⟨i, rfl⟩ : ∃ i, j = i + 1 := ⟨j - 1, by omega⟩
        cases i with
        | zero => exact absurd (by simpa [pow_two] using h) hx
        | succ i => exact ⟨i + 1, by omega, by omega, h⟩

end Sys2Proof.Machine
end

