-- ==== Sys2Proof/Laws/Decode.lean ====
section
/-!
SUPPORT. The fields of a command word as numbers (R81) and the word a sum of fields makes (R93), so that no proof about an
encoding unfolds a bit extraction.
-/

namespace Sys2Proof

/-- A sum of fields in their places is below `2 ^ 24`, so the word holds it whole (R93). -/
theorem packFields_toNat (op : Nat) (rd ra rb rn : RegField) (hop : op < 2 ^ 8) :
    (packFields op rd ra rb rn).toNat
      = op + rd.toNat * 2 ^ 8 + ra.toNat * 2 ^ 12 + rb.toNat * 2 ^ 16 + rn.toNat * 2 ^ 20 := by
  have := rd.isLt
  have := ra.isLt
  have := rb.isLt
  have := rn.isLt
  rw [packFields, BitVec.toNat_ofNat]
  omega

/-- OP as a number. -/
theorem opField_toNat (w : Word) : (opField w).toNat = w.toNat % 2 ^ 8 := by
  simp only [opField, BitVec.extractLsb'_toNat, Nat.shiftRight_eq_div_pow]
  omega

/-- RSV as a number. -/
theorem rsvField_toNat (w : Word) : (rsvField w).toNat = w.toNat / 2 ^ 24 % 2 ^ 8 := by
  simp only [rsvField, BitVec.extractLsb'_toNat, Nat.shiftRight_eq_div_pow]

/-- RD as a number. -/
theorem rdField_toNat (w : Word) : (rdField w).toNat = w.toNat / 2 ^ 8 % 2 ^ 4 := by
  simp only [rdField, BitVec.extractLsb'_toNat, Nat.shiftRight_eq_div_pow]

/-- RA as a number. -/
theorem raField_toNat (w : Word) : (raField w).toNat = w.toNat / 2 ^ 12 % 2 ^ 4 := by
  simp only [raField, BitVec.extractLsb'_toNat, Nat.shiftRight_eq_div_pow]

/-- RB as a number. -/
theorem rbField_toNat (w : Word) : (rbField w).toNat = w.toNat / 2 ^ 16 % 2 ^ 4 := by
  simp only [rbField, BitVec.extractLsb'_toNat, Nat.shiftRight_eq_div_pow]

/-- RN as a number. -/
theorem rnField_toNat (w : Word) : (rnField w).toNat = w.toNat / 2 ^ 20 % 2 ^ 4 := by
  simp only [rnField, BitVec.extractLsb'_toNat, Nat.shiftRight_eq_div_pow]

/-- OP and RSV of a packed word. -/
theorem packFields_op_rsv (op : Nat) (rd ra rb rn : RegField) (hop : op < 2 ^ 8) :
    (opField (packFields op rd ra rb rn)).toNat = op ∧ rsvField (packFields op rd ra rb rn) = 0 := by
  have := packFields_toNat op rd ra rb rn hop
  have := rd.isLt
  have := ra.isLt
  have := rb.isLt
  have := rn.isLt
  refine ⟨by rw [opField_toNat]; omega, BitVec.eq_of_toNat_eq ?_⟩
  rw [rsvField_toNat]
  change _ = 0
  omega

end Sys2Proof
end

