-- ==== Sys2Proof/Laws/State.lean ====
section
/-!
SUPPORT. What each update of the state leaves in each field: one lemma per field per update, true by rfl, so that no later
proof unfolds a record update.
-/

namespace Sys2Proof.Machine

/-! ### `Status.issue` -/

@[simp] theorem Status.issue_busy (st : Status) : (st.issue).busy = true := rfl
@[simp] theorem Status.issue_done (st : Status) : (st.issue).done = false := rfl
@[simp] theorem Status.issue_err (st : Status) : (st.issue).err = false := rfl
@[simp] theorem Status.issue_ovr (st : Status) : (st.issue).ovr = st.ovr := rfl
@[simp] theorem Status.issue_flag (st : Status) : (st.issue).flag = st.flag := rfl
@[simp] theorem Status.issue_errcode (st : Status) : (st.issue).errcode = .none := rfl

/-! ### `Status.succeed` -/

@[simp] theorem Status.succeed_busy (st : Status) : (st.succeed).busy = false := rfl
@[simp] theorem Status.succeed_done (st : Status) : (st.succeed).done = true := rfl
@[simp] theorem Status.succeed_err (st : Status) : (st.succeed).err = st.err := rfl
@[simp] theorem Status.succeed_ovr (st : Status) : (st.succeed).ovr = st.ovr := rfl
@[simp] theorem Status.succeed_flag (st : Status) : (st.succeed).flag = st.flag := rfl
@[simp] theorem Status.succeed_errcode (st : Status) : (st.succeed).errcode = st.errcode := rfl

/-! ### `Status.fail` -/

@[simp] theorem Status.fail_busy (st : Status) (c : ErrCode) : (st.fail c).busy = false := rfl
@[simp] theorem Status.fail_done (st : Status) (c : ErrCode) : (st.fail c).done = true := rfl
@[simp] theorem Status.fail_err (st : Status) (c : ErrCode) : (st.fail c).err = true := rfl
@[simp] theorem Status.fail_ovr (st : Status) (c : ErrCode) : (st.fail c).ovr = st.ovr := rfl
@[simp] theorem Status.fail_flag (st : Status) (c : ErrCode) : (st.fail c).flag = st.flag := rfl
@[simp] theorem Status.fail_errcode (st : Status) (c : ErrCode) : (st.fail c).errcode = c := rfl

/-! ### `Status.withFlag` -/

@[simp] theorem Status.withFlag_busy (st : Status) (w : Bool) : (st.withFlag w).busy = st.busy := rfl
@[simp] theorem Status.withFlag_done (st : Status) (w : Bool) : (st.withFlag w).done = st.done := rfl
@[simp] theorem Status.withFlag_err (st : Status) (w : Bool) : (st.withFlag w).err = st.err := rfl
@[simp] theorem Status.withFlag_ovr (st : Status) (w : Bool) : (st.withFlag w).ovr = st.ovr := rfl
@[simp] theorem Status.withFlag_flag (st : Status) (w : Bool) : (st.withFlag w).flag = w := rfl
@[simp] theorem Status.withFlag_errcode (st : Status) (w : Bool) : (st.withFlag w).errcode = st.errcode := rfl

/-! ### `Status.overrun` -/

@[simp] theorem Status.overrun_busy (st : Status) : (st.overrun).busy = st.busy := rfl
@[simp] theorem Status.overrun_done (st : Status) : (st.overrun).done = st.done := rfl
@[simp] theorem Status.overrun_err (st : Status) : (st.overrun).err = st.err := rfl
@[simp] theorem Status.overrun_ovr (st : Status) : (st.overrun).ovr = true := rfl
@[simp] theorem Status.overrun_flag (st : Status) : (st.overrun).flag = st.flag := rfl
@[simp] theorem Status.overrun_errcode (st : Status) : (st.overrun).errcode = st.errcode := rfl

/-! ### `Status.clearBy` -/

@[simp] theorem Status.clearBy_busy (st : Status) (v : Word) : (st.clearBy v).busy = st.busy := rfl
@[simp] theorem Status.clearBy_done (st : Status) (v : Word) : (st.clearBy v).done = (st.done && !v.getLsbD 1) := rfl
@[simp] theorem Status.clearBy_err (st : Status) (v : Word) : (st.clearBy v).err = (st.err && !v.getLsbD 2) := rfl
@[simp] theorem Status.clearBy_ovr (st : Status) (v : Word) : (st.clearBy v).ovr = (st.ovr && !v.getLsbD 3) := rfl
@[simp] theorem Status.clearBy_flag (st : Status) (v : Word) : (st.clearBy v).flag = st.flag := rfl
@[simp] theorem Status.clearBy_errcode (st : Status) (v : Word) : (st.clearBy v).errcode = (if v.getLsbD 2 then .none else st.errcode) := rfl

/-! ### `State.issue` -/

@[simp] theorem State.issue_params (s : State) (w : Word) : (s.issue w).params = s.params := rfl
@[simp] theorem State.issue_x (s : State) (w : Word) : (s.issue w).x = s.x := rfl
@[simp] theorem State.issue_h (s : State) (w : Word) : (s.issue w).h = s.h := rfl
@[simp] theorem State.issue_m (s : State) (w : Word) : (s.issue w).m = s.m := rfl
@[simp] theorem State.issue_status (s : State) (w : Word) : (s.issue w).status = s.status.issue := rfl
@[simp] theorem State.issue_ie (s : State) (w : Word) : (s.issue w).ie = s.ie := rfl
@[simp] theorem State.issue_cmdlatch (s : State) (w : Word) : (s.issue w).cmdlatch = w := rfl
@[simp] theorem State.issue_events (s : State) (w : Word) : (s.issue w).events = s.events := rfl
@[simp] theorem State.issue_reads (s : State) (w : Word) : (s.issue w).reads = s.reads := rfl
@[simp] theorem State.issue_draws (s : State) (w : Word) : (s.issue w).draws = s.draws := rfl

/-! ### `State.raiseCmdError` -/

@[simp] theorem State.raiseCmdError_params (s : State) (c : ErrCode) : (s.raiseCmdError c).params = s.params := rfl
@[simp] theorem State.raiseCmdError_x (s : State) (c : ErrCode) : (s.raiseCmdError c).x = s.x := rfl
@[simp] theorem State.raiseCmdError_h (s : State) (c : ErrCode) : (s.raiseCmdError c).h = s.h := rfl
@[simp] theorem State.raiseCmdError_m (s : State) (c : ErrCode) : (s.raiseCmdError c).m = s.m := rfl
@[simp] theorem State.raiseCmdError_status (s : State) (c : ErrCode) : (s.raiseCmdError c).status = s.status.fail c := rfl
@[simp] theorem State.raiseCmdError_ie (s : State) (c : ErrCode) : (s.raiseCmdError c).ie = s.ie := rfl
@[simp] theorem State.raiseCmdError_cmdlatch (s : State) (c : ErrCode) : (s.raiseCmdError c).cmdlatch = s.cmdlatch := rfl
@[simp] theorem State.raiseCmdError_events (s : State) (c : ErrCode) : (s.raiseCmdError c).events = s.events := rfl
@[simp] theorem State.raiseCmdError_reads (s : State) (c : ErrCode) : (s.raiseCmdError c).reads = s.reads := rfl
@[simp] theorem State.raiseCmdError_draws (s : State) (c : ErrCode) : (s.raiseCmdError c).draws = s.draws := rfl

/-! ### `State.complete` -/

@[simp] theorem State.complete_params (s : State) : (s.complete).params = s.params := rfl
@[simp] theorem State.complete_x (s : State) : (s.complete).x = s.x := rfl
@[simp] theorem State.complete_h (s : State) : (s.complete).h = s.h := rfl
@[simp] theorem State.complete_m (s : State) : (s.complete).m = s.m := rfl
@[simp] theorem State.complete_status (s : State) : (s.complete).status = s.status.succeed := rfl
@[simp] theorem State.complete_ie (s : State) : (s.complete).ie = s.ie := rfl
@[simp] theorem State.complete_cmdlatch (s : State) : (s.complete).cmdlatch = s.cmdlatch := rfl
@[simp] theorem State.complete_events (s : State) : (s.complete).events = s.events := rfl
@[simp] theorem State.complete_reads (s : State) : (s.complete).reads = s.reads := rfl
@[simp] theorem State.complete_draws (s : State) : (s.complete).draws = s.draws := rfl

/-! ### `State.dropCommand` -/

@[simp] theorem State.dropCommand_params (s : State) : (s.dropCommand).params = s.params := rfl
@[simp] theorem State.dropCommand_x (s : State) : (s.dropCommand).x = s.x := rfl
@[simp] theorem State.dropCommand_h (s : State) : (s.dropCommand).h = s.h := rfl
@[simp] theorem State.dropCommand_m (s : State) : (s.dropCommand).m = s.m := rfl
@[simp] theorem State.dropCommand_status (s : State) : (s.dropCommand).status = s.status.overrun := rfl
@[simp] theorem State.dropCommand_ie (s : State) : (s.dropCommand).ie = s.ie := rfl
@[simp] theorem State.dropCommand_cmdlatch (s : State) : (s.dropCommand).cmdlatch = s.cmdlatch := rfl
@[simp] theorem State.dropCommand_events (s : State) : (s.dropCommand).events = s.events := rfl
@[simp] theorem State.dropCommand_reads (s : State) : (s.dropCommand).reads = s.reads := rfl
@[simp] theorem State.dropCommand_draws (s : State) : (s.dropCommand).draws = s.draws := rfl

/-! ### `State.setFlag` -/

@[simp] theorem State.setFlag_params (s : State) (w : Bool) : (s.setFlag w).params = s.params := rfl
@[simp] theorem State.setFlag_x (s : State) (w : Bool) : (s.setFlag w).x = s.x := rfl
@[simp] theorem State.setFlag_h (s : State) (w : Bool) : (s.setFlag w).h = s.h := rfl
@[simp] theorem State.setFlag_m (s : State) (w : Bool) : (s.setFlag w).m = s.m := rfl
@[simp] theorem State.setFlag_status (s : State) (w : Bool) : (s.setFlag w).status = s.status.withFlag w := rfl
@[simp] theorem State.setFlag_ie (s : State) (w : Bool) : (s.setFlag w).ie = s.ie := rfl
@[simp] theorem State.setFlag_cmdlatch (s : State) (w : Bool) : (s.setFlag w).cmdlatch = s.cmdlatch := rfl
@[simp] theorem State.setFlag_events (s : State) (w : Bool) : (s.setFlag w).events = s.events := rfl
@[simp] theorem State.setFlag_reads (s : State) (w : Bool) : (s.setFlag w).reads = s.reads := rfl
@[simp] theorem State.setFlag_draws (s : State) (w : Bool) : (s.setFlag w).draws = s.draws := rfl

/-! ### `State.softReset` -/

@[simp] theorem State.softReset_params (s : State) : (s.softReset).params = s.params := rfl
@[simp] theorem State.softReset_x (s : State) : (s.softReset).x = Vector.replicate NXREG 0 := rfl
@[simp] theorem State.softReset_h (s : State) : (s.softReset).h = Vector.replicate 8 0 := rfl
@[simp] theorem State.softReset_m (s : State) : (s.softReset).m = Vector.replicate 16 0 := rfl
@[simp] theorem State.softReset_status (s : State) : (s.softReset).status = Status.cleared := rfl
@[simp] theorem State.softReset_ie (s : State) : (s.softReset).ie = false := rfl
@[simp] theorem State.softReset_cmdlatch (s : State) : (s.softReset).cmdlatch = 0 := rfl
@[simp] theorem State.softReset_events (s : State) : (s.softReset).events = s.events := rfl
@[simp] theorem State.softReset_reads (s : State) : (s.softReset).reads = s.reads := rfl
@[simp] theorem State.softReset_draws (s : State) : (s.softReset).draws = s.draws := rfl

/-! ### `State.answer` -/

@[simp] theorem State.answer_params (s : State) (v : Word) : (s.answer v).params = s.params := rfl
@[simp] theorem State.answer_x (s : State) (v : Word) : (s.answer v).x = s.x := rfl
@[simp] theorem State.answer_h (s : State) (v : Word) : (s.answer v).h = s.h := rfl
@[simp] theorem State.answer_m (s : State) (v : Word) : (s.answer v).m = s.m := rfl
@[simp] theorem State.answer_status (s : State) (v : Word) : (s.answer v).status = s.status := rfl
@[simp] theorem State.answer_ie (s : State) (v : Word) : (s.answer v).ie = s.ie := rfl
@[simp] theorem State.answer_cmdlatch (s : State) (v : Word) : (s.answer v).cmdlatch = s.cmdlatch := rfl
@[simp] theorem State.answer_events (s : State) (v : Word) : (s.answer v).events = s.events := rfl
@[simp] theorem State.answer_reads (s : State) (v : Word) : (s.answer v).reads = v :: s.reads := rfl
@[simp] theorem State.answer_draws (s : State) (v : Word) : (s.answer v).draws = s.draws := rfl

/-! ### `State.answerFree` -/

@[simp] theorem State.answerFree_params (s : State) : (s.answerFree).params = s.params := rfl
@[simp] theorem State.answerFree_x (s : State) : (s.answerFree).x = s.x := rfl
@[simp] theorem State.answerFree_h (s : State) : (s.answerFree).h = s.h := rfl
@[simp] theorem State.answerFree_m (s : State) : (s.answerFree).m = s.m := rfl
@[simp] theorem State.answerFree_status (s : State) : (s.answerFree).status = s.status := rfl
@[simp] theorem State.answerFree_ie (s : State) : (s.answerFree).ie = s.ie := rfl
@[simp] theorem State.answerFree_cmdlatch (s : State) : (s.answerFree).cmdlatch = s.cmdlatch := rfl
@[simp] theorem State.answerFree_events (s : State) : (s.answerFree).events = s.events := rfl
@[simp] theorem State.answerFree_reads (s : State) : (s.answerFree).reads = Config.freeWord s.draws :: s.reads := rfl
@[simp] theorem State.answerFree_draws (s : State) : (s.answerFree).draws = s.draws + 1 := rfl

/-! ### `State.writeX` -/

@[simp] theorem State.writeX_params (s : State) (r : RegField) (v : Nat) : (s.writeX r v).params = s.params := rfl
@[simp] theorem State.writeX_x (s : State) (r : RegField) (v : Nat) : (s.writeX r v).x = s.x.setIfInBounds r.toNat v := rfl
@[simp] theorem State.writeX_h (s : State) (r : RegField) (v : Nat) : (s.writeX r v).h = s.h := rfl
@[simp] theorem State.writeX_m (s : State) (r : RegField) (v : Nat) : (s.writeX r v).m = s.m := rfl
@[simp] theorem State.writeX_status (s : State) (r : RegField) (v : Nat) : (s.writeX r v).status = s.status := rfl
@[simp] theorem State.writeX_ie (s : State) (r : RegField) (v : Nat) : (s.writeX r v).ie = s.ie := rfl
@[simp] theorem State.writeX_cmdlatch (s : State) (r : RegField) (v : Nat) : (s.writeX r v).cmdlatch = s.cmdlatch := rfl
@[simp] theorem State.writeX_events (s : State) (r : RegField) (v : Nat) : (s.writeX r v).events = s.events := rfl
@[simp] theorem State.writeX_reads (s : State) (r : RegField) (v : Nat) : (s.writeX r v).reads = s.reads := rfl
@[simp] theorem State.writeX_draws (s : State) (r : RegField) (v : Nat) : (s.writeX r v).draws = s.draws := rfl

/-! ### `State.writeH` -/

@[simp] theorem State.writeH_params (s : State) (h : Vector Word 8) : (s.writeH h).params = s.params := rfl
@[simp] theorem State.writeH_x (s : State) (h : Vector Word 8) : (s.writeH h).x = s.x := rfl
@[simp] theorem State.writeH_h (s : State) (h : Vector Word 8) : (s.writeH h).h = h := rfl
@[simp] theorem State.writeH_m (s : State) (h : Vector Word 8) : (s.writeH h).m = s.m := rfl
@[simp] theorem State.writeH_status (s : State) (h : Vector Word 8) : (s.writeH h).status = s.status := rfl
@[simp] theorem State.writeH_ie (s : State) (h : Vector Word 8) : (s.writeH h).ie = s.ie := rfl
@[simp] theorem State.writeH_cmdlatch (s : State) (h : Vector Word 8) : (s.writeH h).cmdlatch = s.cmdlatch := rfl
@[simp] theorem State.writeH_events (s : State) (h : Vector Word 8) : (s.writeH h).events = s.events := rfl
@[simp] theorem State.writeH_reads (s : State) (h : Vector Word 8) : (s.writeH h).reads = s.reads := rfl
@[simp] theorem State.writeH_draws (s : State) (h : Vector Word 8) : (s.writeH h).draws = s.draws := rfl

/-! ### `State.withFetchWord` -/

@[simp] theorem State.withFetchWord_params (s : State) (nbits w : Nat) : (s.withFetchWord nbits w).params = s.params := rfl
@[simp] theorem State.withFetchWord_x (s : State) (nbits w : Nat) : (s.withFetchWord nbits w).x = s.x := rfl
@[simp] theorem State.withFetchWord_h (s : State) (nbits w : Nat) : (s.withFetchWord nbits w).h = s.h := rfl
@[simp] theorem State.withFetchWord_m (s : State) (nbits w : Nat) : (s.withFetchWord nbits w).m = s.m := rfl
@[simp] theorem State.withFetchWord_status (s : State) (nbits w : Nat) : (s.withFetchWord nbits w).status = s.status.issue := rfl
@[simp] theorem State.withFetchWord_ie (s : State) (nbits w : Nat) : (s.withFetchWord nbits w).ie = s.ie := rfl
@[simp] theorem State.withFetchWord_cmdlatch (s : State) (nbits w : Nat) : (s.withFetchWord nbits w).cmdlatch = tableWord nbits w := rfl
@[simp] theorem State.withFetchWord_events (s : State) (nbits w : Nat) : (s.withFetchWord nbits w).events = .engine :: s.events := rfl
@[simp] theorem State.withFetchWord_reads (s : State) (nbits w : Nat) : (s.withFetchWord nbits w).reads = s.reads := rfl
@[simp] theorem State.withFetchWord_draws (s : State) (nbits w : Nat) : (s.withFetchWord nbits w).draws = s.draws := rfl

/-! ### `State.resetFor` -/

@[simp] theorem State.resetFor_params (p : Params) : (State.resetFor p).params = p := rfl
@[simp] theorem State.resetFor_x (p : Params) : (State.resetFor p).x = Vector.replicate NXREG 0 := rfl
@[simp] theorem State.resetFor_h (p : Params) : (State.resetFor p).h = Vector.replicate 8 0 := rfl
@[simp] theorem State.resetFor_m (p : Params) : (State.resetFor p).m = Vector.replicate 16 0 := rfl
@[simp] theorem State.resetFor_status (p : Params) : (State.resetFor p).status = Status.cleared := rfl
@[simp] theorem State.resetFor_ie (p : Params) : (State.resetFor p).ie = false := rfl
@[simp] theorem State.resetFor_cmdlatch (p : Params) : (State.resetFor p).cmdlatch = 0 := rfl
@[simp] theorem State.resetFor_events (p : Params) : (State.resetFor p).events = [] := rfl
@[simp] theorem State.resetFor_reads (p : Params) : (State.resetFor p).reads = [] := rfl
@[simp] theorem State.resetFor_draws (p : Params) : (State.resetFor p).draws = 0 := rfl

/-! ### The parameters left open are in the spec's bounds (R6, R8) -/

/-- Whatever the free values are, OPW and BASE meet R6 and R8. -/
theorem params_valid : Config.params.valid = true := by
  have hnw : Config.nwIndex.val < 255 := Config.nwIndex.isLt
  have hopw : Config.params.opw = 32 * (Config.nwIndex.val + 2) := rfl
  have hbase : Config.params.base = 0x4000 * Config.baseIndex := rfl
  simp only [Params.valid, hopw, hbase, Bool.and_eq_true, beq_iff_eq, decide_eq_true_eq]
  omega

end Sys2Proof.Machine
end

