-- ==== Sys2Proof/Laws/Flags.lean ====
section
/-!
SUPPORT. What the host reads of STATUS (R26) and INFO (R37), bit by bit, so that no proof unfolds a sum of fields.
-/

namespace Sys2Proof.Machine

/-- The fields of STATUS in their places (R26). -/
theorem Status.toWord_bits (st : Status) :
    st.toWord.getLsbD 0 = st.busy ∧ st.toWord.getLsbD 1 = st.done ∧ st.toWord.getLsbD 2 = st.err ∧
      st.toWord.getLsbD 3 = st.ovr ∧ st.toWord.getLsbD 4 = st.flag ∧
      (st.toWord.extractLsb' 8 4).toNat = st.errcode.code := by
  obtain ⟨b, d, e, o, f, c⟩ := st
  cases b <;> cases d <;> cases e <;> cases o <;> cases f <;> cases c <;> decide

/-- INFO as a number (R37): NW fits its field, so nothing is lost. -/
theorem infoWord_toNat (p : Params) (h : p.nw ≤ 256) :
    (infoWord p).toNat = p.nw + 8 * 2 ^ 16 + 7 * 2 ^ 24 := by
  rw [infoWord, BitVec.toNat_ofNat, NXREG]
  omega

end Sys2Proof.Machine
end

