-- ==== Sys2Proof/Laws/Ops.lean ====
section
/-!
SUPPORT. What one turn can do, said once: the inversion of `exec`, of `engineTurn`, of `hostAccess` and of `step`. A proof
about every step or every command cites these and never unfolds a meaning.
-/

namespace Sys2Proof.Machine

/-- A meaning answers a next state: its rule's, or the ILL_FIELD completion (R82, R95). -/
theorem State.withOperands_eq (s : State) (i : Instr) (rule : State) :
    s.withOperands i rule = .next (if i.wf then rule else s.raiseCmdError .illField) := by
  unfold State.withOperands
  split <;> simp [*]

/-- Every way a command can complete, in the terms of R22, R95, R97 and R143: with an error, that writes only STATUS; or
with success, that writes the register RD, and FLAG if it is MRWIT, or that writes H. -/
inductive Completion (i : Instr) (s : State) : State → Prop where
  | error (c : ErrCode) (hc : c ≠ .none) : Completion i s (s.raiseCmdError c)
  | result (rd : RegField) (v : Nat) (hwf : i.wf = true) (hd : destX i = some rd)
      (hne : ∀ d a n, i ≠ .mrwit d a n) : Completion i s ((s.writeX rd v).complete)
  | witness (rd ra rn : RegField) (w : Bool) (hwf : i.wf = true) (hi : i = .mrwit rd ra rn) :
      Completion i s (((s.writeX rd w.toNat).setFlag w).complete)
  | digest (h : Vector Word 8) (hd : destH i = true) : Completion i s ((s.writeH h).complete)

/-- MONTMUL answers a completion. -/
theorem execMontmul_completion (rd ra rb rn : RegField) (s : State) :
    ∃ t, execMontmul rd ra rb rn s = .next t ∧ Completion (.montmul rd ra rb rn) s t := by
  refine ⟨_, State.withOperands_eq _ _ _, ?_⟩
  repeat' split
  · exact .error _ nofun
  · exact .error _ nofun
  · next hwf _ _ => exact .result _ _ hwf rfl nofun
  · exact .error _ nofun

/-- MODEXP answers a completion. -/
theorem execModexp_completion (rd ra rb rn : RegField) (s : State) :
    ∃ t, execModexp rd ra rb rn s = .next t ∧ Completion (.modexp rd ra rb rn) s t := by
  refine ⟨_, State.withOperands_eq _ _ _, ?_⟩
  repeat' split
  · exact .error _ nofun
  · next hwf _ => exact .result _ _ hwf rfl nofun
  · exact .error _ nofun

/-- GCD answers a completion. -/
theorem execGcd_completion (rd ra rb : RegField) (s : State) :
    ∃ t, execGcd rd ra rb s = .next t ∧ Completion (.gcd rd ra rb) s t := by
  refine ⟨_, State.withOperands_eq _ _ _, ?_⟩
  split
  · next hwf => exact .result _ _ hwf rfl nofun
  · exact .error _ nofun

/-- MODINV answers a completion. -/
theorem execModinv_completion (rd ra rn : RegField) (s : State) :
    ∃ t, execModinv rd ra rn s = .next t ∧ Completion (.modinv rd ra rn) s t := by
  refine ⟨_, State.withOperands_eq _ _ _, ?_⟩
  repeat' split
  · exact .error _ nofun
  · exact .error _ nofun
  · next hwf _ _ _ _ => exact .result _ _ hwf rfl nofun
  · exact .error _ nofun

/-- MRWIT answers a completion. -/
theorem execMrwit_completion (rd ra rn : RegField) (s : State) :
    ∃ t, execMrwit rd ra rn s = .next t ∧ Completion (.mrwit rd ra rn) s t := by
  refine ⟨_, State.withOperands_eq _ _ _, ?_⟩
  repeat' split
  · exact .error _ nofun
  · next hwf _ => exact .witness _ _ _ _ hwf rfl
  · exact .error _ nofun

/-- SHAINIT answers a completion. -/
theorem execShainit_completion (s : State) :
    ∃ t, execShainit s = .next t ∧ Completion .shainit s t :=
  ⟨_, State.withOperands_eq _ _ _, .digest _ rfl⟩

/-- SHACOMP answers a completion. -/
theorem execShacomp_completion (s : State) :
    ∃ t, execShacomp s = .next t ∧ Completion .shacomp s t :=
  ⟨_, State.withOperands_eq _ _ _, .digest _ rfl⟩

/-- Every command answers a completion: none faults and none is refused (R95). -/
theorem exec_completion (i : Instr) (s : State) : ∃ t, exec i s = .next t ∧ Completion i s t := by
  cases i with
  | montmul rd ra rb rn => exact execMontmul_completion rd ra rb rn s
  | modexp rd ra rb rn => exact execModexp_completion rd ra rb rn s
  | gcd rd ra rb => exact execGcd_completion rd ra rb s
  | modinv rd ra rn => exact execModinv_completion rd ra rn s
  | mrwit rd ra rn => exact execMrwit_completion rd ra rn s
  | shainit => exact execShainit_completion s
  | shacomp => exact execShacomp_completion s

/-- The decoder's errors are ILL_OP and ILL_FIELD (R92). -/
theorem decode_error (w : Word) (c : ErrCode) (h : decode w = .error c) : c = .illOp ∨ c = .illField := by
  unfold decode acceptFields at h
  repeat' split at h
  all_goals first
    | exact .inl (Except.error.inj h).symm
    | exact .inr (Except.error.inj h).symm
    | cases h

/-- What the engine's turn can do: nothing while no command is in progress, else a completion of the decoded
instruction or of a word that is none (R95, R207). -/
inductive EngineTurn (s : State) : State → Prop where
  | idle (hb : s.status.busy = false) : EngineTurn s s
  | command (i : Instr) (t : State) (hb : s.status.busy = true) (hd : decode s.cmdlatch = .ok i)
      (he : exec i s = .next t) (hc : Completion i s t) : EngineTurn s t
  | illegal (c : ErrCode) (hb : s.status.busy = true) (hd : decode s.cmdlatch = .error c)
      (hc : c = .illOp ∨ c = .illField) : EngineTurn s (s.raiseCmdError c)

/-- The engine's turn always answers a next state. -/
theorem engineTurn_cases (s : State) : ∃ t, engineTurn s = .next t ∧ EngineTurn s t := by
  unfold engineTurn
  split
  · next hb =>
    split
    · next i hd =>
      obtain ⟨t, he, hc⟩ := exec_completion i s
      exact ⟨t, he, .command i t hb hd he hc⟩
    · next c hd => exact ⟨_, rfl, .illegal c hb hd (decode_error _ _ hd)⟩
  · next hb => exact ⟨s, rfl, .idle (by simpa using hb)⟩

/-- The state as the host's or the engine's turn finds it: the turn is off the schedule. -/
def State.afterTurn (s : State) (rest : List Event) : State := { s with events := rest }

/-- Every step that answers a next state is the engine's turn, with the schedule empty or the engine first, or the
access that stands first. -/
theorem step_next_cases (s t : State) (h : step s = .next t) :
    (s.events = [] ∧ EngineTurn s t) ∨
    (∃ rest, s.events = .engine :: rest ∧ EngineTurn (s.afterTurn rest) t) ∨
    (∃ a rest, s.events = .access a :: rest ∧ hostAccess a (s.afterTurn rest) = .next t) := by
  have engine : ∀ u, engineTurn u = .next t → EngineTurn u t := fun u hu => by
    obtain ⟨t', he, hc⟩ := engineTurn_cases u
    obtain rfl : t' = t := by simpa [he] using hu
    exact hc
  unfold step at h
  split at h
  · next he => exact .inl ⟨he, engine _ h⟩
  · next rest he => exact .inr (.inl ⟨rest, he, engine _ h⟩)
  · next a rest he => exact .inr (.inr ⟨a, rest, he, h⟩)

/-- An access that answers a next state is the one host's, 32 bits wide, in the window and aligned (R50, R52, R205), and is
performed by `hostRead` or `hostWrite`. -/
theorem hostAccess_next_cases (a : Access) (s t : State) (h : hostAccess a s = .next t) :
    (a.host = 0 ∧ a.width = 32 ∧ inWindow s.params a.addr = true ∧ (a.addr - s.params.base) % 4 = 0) ∧
    ((a.op = .read ∧ t = s.hostRead (s.regAt a.addr)) ∨
      ∃ v, a.op = .write v ∧ t = s.hostWrite (s.regAt a.addr) v) := by
  unfold hostAccess at h
  repeat' split at h
  all_goals first
    | cases h; done
    | (cases h; simp_all)

/-- What a host read leaves: one more answer, and nothing of the block changed (R58). -/
theorem State.hostRead_cases (s : State) (r : WindowReg) :
    (s.inFlight r = true ∧ s.hostRead r = s.answerFree) ∨
    (s.inFlight r = false ∧ s.hostRead r = s.answer (s.peek r)) := by
  unfold State.hostRead
  split <;> simp_all

/-- What a host write of `v` to a window register can do (R33, R36, R53, R57, R61, R94, R199, R221). -/
inductive WriteEffect (s : State) (v : Word) : WindowReg → State → Prop where
  | issue (hb : s.status.busy = false) : WriteEffect s v .cmd (s.issue v)
  | drop (hb : s.status.busy = true) : WriteEffect s v .cmd s.dropCommand
  | clear : WriteEffect s v .status { s with status := s.status.clearBy v }
  | reset (hv : v.getLsbD 1 = true) : WriteEffect s v .ctrl s.softReset
  | enable (hv : v.getLsbD 1 = false) : WriteEffect s v .ctrl { s with ie := v.getLsbD 0 }
  | storeH (i : Fin 8) (hb : s.status.busy = false) : WriteEffect s v (.h i) { s with h := s.h.set i v }
  | storeM (i : Fin 16) (hb : s.status.busy = false) : WriteEffect s v (.m i) { s with m := s.m.set i v }
  | storeX (i : Fin 8) (j : Nat) (hb : s.status.busy = false) :
      WriteEffect s v (.x i j) { s with x := s.x.set i (setXWord s.x[i] j v) }
  | ignored (r : WindowReg) : WriteEffect s v r s

/-- A host write has one of these effects. -/
theorem State.hostWrite_effect (s : State) (r : WindowReg) (v : Word) : WriteEffect s v r (s.hostWrite r v) := by
  cases r with
  | info => exact .ignored _
  | reserved => exact .ignored _
  | status => exact .clear
  | ctrl =>
    simp only [State.hostWrite]
    split
    · next hv => exact .reset hv
    · next hv => exact .enable (by simpa using hv)
  | cmd =>
    simp only [State.hostWrite]
    split
    · next hb => exact .drop hb
    · next hb => exact .issue (by simpa using hb)
  | h i =>
    simp only [State.hostWrite]
    split
    · exact .ignored _
    · next hb => exact .storeH i (by simpa using hb)
  | m i =>
    simp only [State.hostWrite]
    split
    · exact .ignored _
    · next hb => exact .storeM i (by simpa using hb)
  | x i j =>
    simp only [State.hostWrite]
    split
    · exact .ignored _
    · next hb => exact .storeX i j (by simpa using hb)

end Sys2Proof.Machine
end

