-- ==== Sys2Proof/Laws/PerInstr.lean ====
section
/-!
SUPPORT. Facts about every command as syntax, one lemma per constructor: the word the encoder gives holds its opcode in OP and
0 in RSV (R81, R83).
-/

namespace Sys2Proof

namespace Laws.EncodeFields

/-- The encoded word holds the opcode in OP and 0 in RSV. -/
def Statement (i : Instr) : Prop := (opField (encode i)).toNat = i.opcode ∧ rsvField (encode i) = 0

theorem montmul (rd ra rb rn : RegField) : Statement (.montmul rd ra rb rn) :=
  packFields_op_rsv 1 rd ra rb rn (by norm_num)

theorem modexp (rd ra rb rn : RegField) : Statement (.modexp rd ra rb rn) :=
  packFields_op_rsv 2 rd ra rb rn (by norm_num)

theorem gcd (rd ra rb : RegField) : Statement (.gcd rd ra rb) :=
  packFields_op_rsv 3 rd ra rb 0 (by norm_num)

theorem modinv (rd ra rn : RegField) : Statement (.modinv rd ra rn) :=
  packFields_op_rsv 4 rd ra 0 rn (by norm_num)

theorem mrwit (rd ra rn : RegField) : Statement (.mrwit rd ra rn) :=
  packFields_op_rsv 5 rd ra 0 rn (by norm_num)

theorem shainit : Statement .shainit := packFields_op_rsv 6 0 0 0 0 (by norm_num)

theorem shacomp : Statement .shacomp := packFields_op_rsv 7 0 0 0 0 (by norm_num)

end Laws.EncodeFields

end Sys2Proof
end

