-- ==== Sys2Proof/Laws/Window.lean ====
section
/-!
SUPPORT. The words of a big-number register (R13, R53): reading after writing, and the bound a write keeps. The window map
(R51) at each kind of offset, and what a step does whose turn is an access of R12.
-/

namespace Sys2Proof.Machine

/-- A register is its words above `j`, word `j`, and what is below. -/
theorem split_at_word (x j : Nat) :
    x = x / 2 ^ (32 * j + 32) * 2 ^ (32 * j + 32) + (xWord x j).toNat * 2 ^ (32 * j) + x % 2 ^ (32 * j) := by
  have h1 := Nat.div_add_mod x (2 ^ (32 * j))
  have h2 := Nat.div_add_mod (x / 2 ^ (32 * j)) (2 ^ 32)
  rw [Nat.div_div_eq_div_mul, ← pow_add] at h2
  simp only [xWord, BitVec.toNat_ofNat]
  conv_lhs => rw [← h1, ← h2]
  rw [pow_add]
  ring

/-- A write replaces word `j` and keeps the words above and what is below (R53). -/
theorem setXWord_eq (x j : Nat) (v : Word) :
    setXWord x j v = x / 2 ^ (32 * j + 32) * 2 ^ (32 * j + 32) + v.toNat * 2 ^ (32 * j) + x % 2 ^ (32 * j) := by
  have := split_at_word x j
  unfold setXWord
  omega

/-- Reading word `k` after writing word `j`: the value written if they are the same word, the old word if not (R53). -/
theorem xWord_setXWord (x j k : Nat) (v : Word) :
    xWord (setXWord x j v) k = if k = j then v else xWord x k := by
  have hlow : x % 2 ^ (32 * j) < 2 ^ (32 * j) := Nat.mod_lt _ (by positivity)
  have hv : v.toNat < 2 ^ 32 := v.isLt
  have hmid : v.toNat * 2 ^ (32 * j) + x % 2 ^ (32 * j) < 2 ^ (32 * j + 32) := by
    rw [pow_add, mul_comm (2 ^ (32 * j))]
    calc v.toNat * 2 ^ (32 * j) + x % 2 ^ (32 * j) < (v.toNat + 1) * 2 ^ (32 * j) := by linarith
      _ ≤ 2 ^ 32 * 2 ^ (32 * j) := Nat.mul_le_mul_right _ hv
  have hdiv : setXWord x j v / 2 ^ (32 * j) = x / 2 ^ (32 * j + 32) * 2 ^ 32 + v.toNat := by
    rw [setXWord_eq, pow_add (2 : Nat) (32 * j), mul_comm (2 ^ (32 * j)) (2 ^ 32), ← mul_assoc, ← add_mul,
      Nat.add_comm, Nat.add_mul_div_right _ _ (by positivity), Nat.div_eq_of_lt hlow, Nat.zero_add,
      mul_comm (2 ^ 32)]
  have htop : setXWord x j v / 2 ^ (32 * j + 32) = x / 2 ^ (32 * j + 32) := by
    rw [setXWord_eq, Nat.add_assoc, Nat.add_comm, Nat.add_mul_div_right _ _ (by positivity),
      Nat.div_eq_of_lt hmid, Nat.zero_add]
  have hmod : setXWord x j v % 2 ^ (32 * j) = x % 2 ^ (32 * j) := by
    rw [setXWord_eq, pow_add (2 : Nat) (32 * j), mul_comm (2 ^ (32 * j)) (2 ^ 32), ← mul_assoc, ← add_mul,
      Nat.add_comm, Nat.add_mul_mod_self_right, Nat.mod_mod]
  split
  · next hk =>
    subst hk
    rw [xWord, hdiv]
    apply BitVec.eq_of_toNat_eq
    simpa using hv
  · next hk =>
    rcases Nat.lt_or_gt_of_ne hk with hlt | hgt
    · obtain ⟨d, rfl⟩ : ∃ d, j = k + 1 + d := ⟨j - k - 1, by omega⟩
      have low : ∀ y : Nat, xWord y k = xWord (y % 2 ^ (32 * (k + 1 + d))) k := fun y => by
        apply BitVec.eq_of_toNat_eq
        simp only [xWord, BitVec.toNat_ofNat]
        rw [show 32 * (k + 1 + d) = 32 * k + (32 + 32 * d) by ring, pow_add, Nat.mod_mul_right_div_self,
          pow_add, Nat.mod_mul_right_mod]
      rw [low, hmod, ← low]
    · obtain ⟨d, rfl⟩ : ∃ d, k = j + 1 + d := ⟨k - j - 1, by omega⟩
      have high : ∀ y : Nat, xWord y (j + 1 + d) = BitVec.ofNat 32 (y / 2 ^ (32 * j + 32) / 2 ^ (32 * d)) :=
        fun y => by
          rw [xWord, Nat.div_div_eq_div_mul, ← pow_add]
          congr 3
          ring
      rw [high, htop, ← high]

/-- A word write keeps the bound of a register of `nw` words (R21, R53). -/
theorem setXWord_lt (nw x j : Nat) (v : Word) (hx : x < 2 ^ (32 * nw)) (hj : j < nw) :
    setXWord x j v < 2 ^ (32 * nw) := by
  obtain ⟨d, rfl⟩ : ∃ d, nw = j + 1 + d := ⟨nw - j - 1, by omega⟩
  have hpow : (2 : Nat) ^ (32 * (j + 1 + d)) = 2 ^ (32 * d) * 2 ^ (32 * j + 32) := by rw [← pow_add]; congr 1; ring
  have hlow : x % 2 ^ (32 * j) < 2 ^ (32 * j) := Nat.mod_lt _ (by positivity)
  have hv : v.toNat < 2 ^ 32 := v.isLt
  have hmid : v.toNat * 2 ^ (32 * j) + x % 2 ^ (32 * j) < 2 ^ (32 * j + 32) := by
    rw [pow_add, mul_comm (2 ^ (32 * j))]
    calc v.toNat * 2 ^ (32 * j) + x % 2 ^ (32 * j) < (v.toNat + 1) * 2 ^ (32 * j) := by linarith
      _ ≤ 2 ^ 32 * 2 ^ (32 * j) := Nat.mul_le_mul_right _ hv
  have htop : x / 2 ^ (32 * j + 32) < 2 ^ (32 * d) :=
    Nat.div_lt_of_lt_mul (by rwa [hpow, mul_comm] at hx)
  rw [setXWord_eq, hpow]
  calc x / 2 ^ (32 * j + 32) * 2 ^ (32 * j + 32) + v.toNat * 2 ^ (32 * j) + x % 2 ^ (32 * j)
      < (x / 2 ^ (32 * j + 32) + 1) * 2 ^ (32 * j + 32) := by linarith
    _ ≤ 2 ^ (32 * d) * 2 ^ (32 * j + 32) := Nat.mul_le_mul_right _ htop

/-- A soft reset leaves the state of a power-on reset but for the model's own fields (R221). -/
theorem State.softReset_eq (s : State) :
    s.softReset = { State.resetFor s.params with events := s.events, reads := s.reads, draws := s.draws } := rfl

/-! ### The window map (R51) -/

/-- Hi is at `0x100 + 4*i`. -/
theorem windowReg_h (nw : Nat) (i : Fin 8) : windowReg nw (0x100 + 4 * i) = .h i := by
  have h : Fin.ofNat 8 ((0x100 + 4 * i.val - 0x100) / 4) = i := Fin.ext (by simp)
  unfold windowReg
  rw [if_neg (by omega), if_neg (by omega), if_neg (by omega), if_neg (by omega), if_pos (by omega), h]

/-- Mi is at `0x140 + 4*i`. -/
theorem windowReg_m (nw : Nat) (i : Fin 16) : windowReg nw (0x140 + 4 * i) = .m i := by
  have h : Fin.ofNat 16 ((0x140 + 4 * i.val - 0x140) / 4) = i := Fin.ext (by simp)
  unfold windowReg
  rw [if_neg (by omega), if_neg (by omega), if_neg (by omega), if_neg (by omega), if_neg (by omega),
    if_pos (by omega), h]

/-- Word `j` of Xi is at `0x1000 + 0x400*i + 4*j`; from `NW` on the offset is reserved (R53). -/
theorem windowReg_x (nw : Nat) (i : Fin 8) (j : Nat) (hj : j < 256) :
    windowReg nw (0x1000 + 0x400 * i + 4 * j) = if j < nw then .x i j else .reserved := by
  have hword : (0x1000 + 0x400 * i.val + 4 * j - 0x1000) % 0x400 / 4 = j := by omega
  have hreg : Fin.ofNat 8 ((0x1000 + 0x400 * i.val + 4 * j - 0x1000) / 0x400) = i := Fin.ext (by simp; omega)
  unfold windowReg
  rw [if_neg (by omega), if_neg (by omega), if_neg (by omega), if_neg (by omega), if_neg (by omega),
    if_neg (by omega), if_pos (by omega)]
  simp only [hword, hreg]

/-- NW words make up a register of OPW bits, and a register has at most 256 of them (R6). -/
theorem nw_of_valid (p : Params) (h : p.valid = true) : p.nw ≤ 256 ∧ 32 * p.nw = p.opw := by
  simp only [Params.valid, Bool.and_eq_true, beq_iff_eq, decide_eq_true_eq] at h
  unfold Params.nw
  omega

/-! ### A step whose turn is an access of the window (R12) -/

/-- A `MemWrite` at an aligned offset of the window is performed (R52, R63). -/
theorem step_memWrite (s : State) (off : Nat) (v : Word) (rest : List Event) (halign : off % 4 = 0)
    (hwin : off < 0x4000) (he : s.events = memWrite s.params off v :: rest) :
    step s = .next (({ s with events := rest } : State).hostWrite (windowReg s.params.nw off) v) := by
  have : inWindow s.params (s.params.base + off) = true := by simp [inWindow, hwin]
  simp [step, he, memWrite, hostAccess, this, halign, State.regAt]

/-- A `MemRead` at an aligned offset of the window is performed (R52, R63). -/
theorem step_memRead (s : State) (off : Nat) (rest : List Event) (halign : off % 4 = 0)
    (hwin : off < 0x4000) (he : s.events = memRead s.params off :: rest) :
    step s = .next (({ s with events := rest } : State).hostRead (windowReg s.params.nw off)) := by
  have : inWindow s.params (s.params.base + off) = true := by simp [inWindow, hwin]
  simp [step, he, memRead, hostAccess, this, halign, State.regAt]

end Sys2Proof.Machine
end

