-- ==== Sys2Proof/Tests/Slice0.lean ====
section
/-!
SUPPORT. Tests: expected results are the spec's own (95_test_vectors.md, the worked examples of the rules) or follow from a
rule by hand; each test's comment says where from. After them, the witnesses: for every statement with hypotheses, a
concrete state and operands that meet all of them.
-/

namespace Sys2Proof.Tests

open Sys2Proof.Machine

/-! ### Helpers -/

/-- A chip with `OPW = 64`, the width of the spec's vectors, its window at 0x8000. -/
def chip : Params := ⟨64, 0x8000, .littleEndian, 0⟩

/-- The chip after reset with the given big-number registers. -/
def withX (x : Vector Nat 8) : State := { State.resetFor chip with x := x }

/-- The chip after reset with the given turns to come. -/
def withEvents (es : List Event) : State := { State.resetFor chip with events := es }

/-- The chip with the word issued and the given turns to come. -/
def running (w : Word) (x : Vector Nat 8) (es : List Event) : State :=
  { (withX x).issue w with events := es }

/-- Register `i` and the error of a completion. -/
def resultOf (i : Fin 8) : Host.Outcome State Fault Refusal → Option (Nat × ErrCode)
  | .next t => some (t.x[i], t.status.errcode)
  | .fault _ => none
  | .refused _ => none

/-- The next state, or the same state where there is none. -/
def after (s : State) : State :=
  match step s with
  | .next t => t
  | .fault _ => s
  | .refused _ => s

/-- Whether the step answers a next state. -/
def goesOn (s : State) : Bool :=
  match step s with
  | .next _ => true
  | .fault _ => false
  | .refused _ => false

theorem step_eq_after (s : State) (h : goesOn s = true) : step s = .next (after s) := by
  unfold goesOn at h
  unfold after
  split at h <;> simp_all

/-- The state a command leaves. -/
def afterExec (i : Instr) (s : State) : State :=
  match exec i s with
  | .next t => t
  | .fault _ => s
  | .refused _ => s

/-! ### Well-formedness: a term that the check refuses, for each field of each constructor (R82) -/

theorem test_wf_accepts : (Instr.montmul 7 7 7 7).wf = true ∧ Instr.shainit.wf = true := by decide

theorem test_wf_refuses_montmul : ¬ (Instr.montmul 8 0 0 0).wf ∧ ¬ (Instr.montmul 0 8 0 0).wf ∧
    ¬ (Instr.montmul 0 0 15 0).wf ∧ ¬ (Instr.montmul 0 0 0 9).wf := by decide

theorem test_wf_refuses_modexp : ¬ (Instr.modexp 8 0 0 0).wf ∧ ¬ (Instr.modexp 0 8 0 0).wf ∧
    ¬ (Instr.modexp 0 0 15 0).wf ∧ ¬ (Instr.modexp 0 0 0 9).wf := by decide

theorem test_wf_refuses_three_fields : ¬ (Instr.gcd 8 0 0).wf ∧ ¬ (Instr.gcd 0 8 0).wf ∧ ¬ (Instr.gcd 0 0 8).wf ∧
    ¬ (Instr.modinv 8 0 0).wf ∧ ¬ (Instr.modinv 0 8 0).wf ∧ ¬ (Instr.modinv 0 0 8).wf ∧
    ¬ (Instr.mrwit 8 0 0).wf ∧ ¬ (Instr.mrwit 0 8 0).wf ∧ ¬ (Instr.mrwit 0 0 8).wf := by decide

/-! ### Decoding: one word of each command, bits from R81 and R83 (RSV, RN, RB, RA, RD, OP) -/

theorem test_decode_montmul :
    decode 0b00000000_0111_0110_0101_0100_00000001 = .ok (.montmul 4 5 6 7) := by decide

theorem test_decode_modexp :
    decode 0b00000000_0011_0010_0001_0100_00000010 = .ok (.modexp 4 1 2 3) := by decide

theorem test_decode_gcd :
    decode 0b00000000_0000_0110_0010_0111_00000011 = .ok (.gcd 7 2 6) := by decide

theorem test_decode_modinv :
    decode 0b00000000_0110_0000_0010_0101_00000100 = .ok (.modinv 5 2 6) := by decide

theorem test_decode_mrwit :
    decode 0b00000000_0010_0000_0001_0011_00000101 = .ok (.mrwit 3 1 2) := by decide

theorem test_decode_shainit :
    decode 0b00000000_0000_0000_0000_0000_00000110 = .ok .shainit := by decide

theorem test_decode_shacomp :
    decode 0b00000000_0000_0000_0000_0000_00000111 = .ok .shacomp := by decide

/-- 95_test_vectors.md L2.0. -/
theorem test_decode_rejects : decode 0x000000FF = .error .illOp ∧ decode 0x00800003 = .error .illField ∧
    decode 0x00000801 = .error .illField ∧ decode 0x00000106 = .error .illField ∧
    decode 0x00F00005 = .error .illField ∧ decode 0x01000008 = .error .illOp := by decide

/-- R89's worked encodings. -/
theorem test_encode : encode (.modexp 4 1 2 3) = 0x00321402 ∧ encode (.gcd 4 0 1) = 0x00010403 ∧
    encode (.mrwit 4 2 0) = 0x00002405 ∧ encode .shainit = 0x00000006 := by decide

theorem test_asm : asmOf (.modexp 4 1 2 3) = "modexp x4, x1, x2, x3" := by decide +kernel

theorem test_decodeTableWord : decodeTableWord 32 0x00777701 = some (.montmul 7 7 7 7) ∧
    decodeTableWord 32 0 = none := by decide

/-! ### The commands -/

/-- R129, and L2.4 row 9: wide operands, fully reduced. -/
theorem test_montmul : resultOf 3 (exec (.montmul 3 1 2 0) (withX #v[97, 5, 7, 0, 0, 0, 0, 0])) = some (61, .none) ∧
    resultOf 1 (exec (.montmul 1 1 1 0)
      (withX #v[18446744073709551557, 18446744073709551615, 0, 0, 0, 0, 0, 0])) =
      some (14694863923124558077, .none) := by decide +kernel

/-- L2.4 rows 7 and 8: MOD_ZERO before MOD_EVEN. -/
theorem test_montmul_errors :
    resultOf 3 (exec (.montmul 3 1 2 0) (withX #v[96, 5, 7, 9, 0, 0, 0, 0])) = some (9, .modEven) ∧
    resultOf 3 (exec (.montmul 3 1 2 0) (withX #v[0, 5, 7, 9, 0, 0, 0, 0])) = some (9, .modZero) := by decide

/-- R107, and L2.1 row 6: `0^0 = 1`. -/
theorem test_modexp : resultOf 4 (exec (.modexp 4 1 2 3) (withX #v[0, 2790, 2753, 3233, 0, 0, 0, 0])) = some (65, .none) ∧
    resultOf 4 (exec (.modexp 4 1 2 3) (withX #v[0, 0, 0, 9, 0, 0, 0, 0])) = some (1, .none) := by decide +kernel

/-- L2.1 rows 5 and 11: `n = 1` gives 0, `n = 0` is MOD_ZERO. -/
theorem test_modexp_corners :
    resultOf 4 (exec (.modexp 4 1 2 3) (withX #v[0, 7, 5, 1, 3, 0, 0, 0])) = some (0, .none) ∧
    resultOf 4 (exec (.modexp 4 1 2 3) (withX #v[0, 3, 4, 0, 3, 0, 0, 0])) = some (3, .modZero) := by decide

/-- L2.3 rows 9 and 3. -/
theorem test_gcd :
    resultOf 7 (exec (.gcd 7 2 6) (withX #v[0, 0, 18446744073709551615, 0, 0, 0, 4294967295, 0])) =
      some (4294967295, .none) ∧
    resultOf 7 (exec (.gcd 7 2 6) (withX #v[0, 0, 0, 0, 0, 0, 0, 5])) = some (0, .none) := by decide +kernel

/-- R114, and L2.2 row 11. -/
theorem test_modinv : resultOf 5 (exec (.modinv 5 2 6) (withX #v[0, 0, 17, 0, 0, 0, 3120, 0])) = some (2753, .none) ∧
    resultOf 2 (exec (.modinv 2 2 6) (withX #v[0, 0, 18446744073709551614, 0, 0, 0, 18446744073709551615, 0])) =
      some (18446744073709551614, .none) := by decide +kernel

/-- L2.2 rows 4, 7 and 8. -/
theorem test_modinv_corners : resultOf 5 (exec (.modinv 5 2 6) (withX #v[0, 0, 3, 0, 0, 9, 1, 0])) = some (0, .none) ∧
    resultOf 5 (exec (.modinv 5 2 6) (withX #v[0, 0, 6, 0, 0, 9, 9, 0])) = some (9, .noInverse) ∧
    resultOf 5 (exec (.modinv 5 2 6) (withX #v[0, 0, 5, 0, 0, 9, 0, 0])) = some (9, .modZero) := by decide +kernel

/-- L2.5 rows 1 to 26 but the errors: candidate, base, `w`. -/
theorem test_witness_table :
    [(561, 2), (221, 137), (9, 2), (2, 0), (341, 2), (341, 3), (91, 2), (5, 5), (97, 97)].all
      (fun p => isWitness p.1 p.2) = true ∧
    [(561, 50), (97, 2), (97, 96), (221, 174), (25, 7), (2, 1), (3, 2), (15, 14), (5, 4), (13, 5), (2047, 2), (91, 10),
      (97, 99), (4, 3), (4, 1)].all (fun p => !isWitness p.1 p.2) = true := by decide +kernel

/-- R146 and L2.5 row 13: FLAG is set, and an error leaves FLAG and RD. -/
theorem test_mrwit : (afterExec (.mrwit 3 1 2) (withX #v[0, 2, 561, 0, 0, 0, 0, 0])).status.flag = true ∧
    resultOf 3 (exec (.mrwit 3 1 2) (withX #v[0, 2, 1, 7, 0, 0, 0, 0])) = some (7, .nSmall) := by decide +kernel

/-- L2.6, the function values. -/
theorem test_sha_functions : smallSigma0 0x80000000 = 0x11002000 ∧ smallSigma1 0x80000000 = 0x00205000 ∧
    bigSigma0 1 = 0x40080400 ∧ bigSigma1 1 = 0x04200080 ∧
    ch 0xFFFFFFFF 0x12345678 0x9ABCDEF0 = 0x12345678 ∧ ch 0 0x12345678 0x9ABCDEF0 = 0x9ABCDEF0 ∧
    maj 0xFF00FF00 0x0F0F0F0F 0x00FFFF00 = 0x0F0FFF00 := by decide

/-- R172. -/
theorem test_shainit : (afterExec .shainit (withX (Vector.replicate 8 0))).h =
    #v[0x6a09e667, 0xbb67ae85, 0x3c6ef372, 0xa54ff53a, 0x510e527f, 0x9b05688c, 0x1f83d9ab, 0x5be0cd19] := by decide

/-- L2.6: from the reset state, `H = 0` and `M = 0`. -/
theorem test_shacomp : (afterExec .shacomp (State.resetFor chip)).h =
    #v[0x7ca51614, 0x425c3ba8, 0xce54dd2f, 0xc2020ae7, 0xb6e574d1, 0x98136d0f, 0xae7e26cc, 0xbf0be7a6] := by
  decide +kernel

/-- S2, R178, R179: `sha256("abc")`, through padding, packing and rendering. -/
theorem test_sha256_abc : sha256 [0x61, 0x62, 0x63] =
    #v[0xba7816bf, 0x8f01cfea, 0x414140de, 0x5dae2223, 0xb00361a3, 0x96177a9c, 0xb410ff61, 0xf20015ad] := by
  decide +kernel

/-- R56: leading zeros are kept. -/
theorem test_lowerHex : lowerHex 0x00c0ffee = "00c0ffee".toList := by decide +kernel

/-- R148: S5 of 95_test_vectors.md. -/
theorem test_isPrime : isPrime 4 [2] = false ∧ isPrime 2 [] = true ∧ isPrime 3 [] = true ∧ isPrime 1 [] = false ∧
    isPrime 561 [50, 2] = false ∧ isPrime 97 [2, 5] = true := by decide +kernel

/-! ### The window and the frame (L2.7, P5) -/

/-- L2.7 rows 1 and 2. -/
theorem test_info : infoWord chip = 0x07080002 ∧ infoWord { chip with opw := 2048 } = 0x07080040 := by decide

/-- P5 steps 3 and 13: STATUS after a MOD_EVEN completion; OVR survives a completion. -/
theorem test_status_words :
    (after (running 0x00021301 #v[96, 5, 7, 0, 0, 0, 0, 0] [.engine])).status.toWord = 0x00000406 ∧
    (after (after (running 0x00021301 #v[97, 5, 7, 0, 0, 0, 0, 0] [memWrite chip 0x00C 0x00021403, .engine]))).status.toWord
      = 0x0000000A := by decide

/-- R190's numbers in R26's bits 11:8, for an error completion: DONE and ERR are set. -/
theorem test_error_numbers :
    (Status.cleared.fail .illOp).toWord = 0x106 ∧ (Status.cleared.fail .illField).toWord = 0x206 ∧
    (Status.cleared.fail .modZero).toWord = 0x306 ∧ (Status.cleared.fail .modEven).toWord = 0x406 ∧
    (Status.cleared.fail .noInverse).toWord = 0x506 ∧ (Status.cleared.fail .nSmall).toWord = 0x606 := by decide

/-- P5 steps 5 to 7: illegal words. -/
theorem test_illegal_words :
    (after (running 0x00000008 (Vector.replicate 8 0) [])).status.toWord = 0x00000106 ∧
    (after (running 0x01000003 (Vector.replicate 8 0) [])).status.toWord = 0x00000206 := by decide

/-- L2.7 row 12: clearing ERR clears ERRCODE and leaves DONE. -/
theorem test_write_one_to_clear :
    ((Status.succeed Status.cleared).fail .noInverse).clearBy 4 = Status.succeed Status.cleared := by decide

/-- L2.7 row 15: SRST resets, whatever bit 0 is. -/
theorem test_soft_reset :
    after (running 0x00021502 #v[97, 5, 7, 0, 0, 0, 0, 0] [memWrite chip 0x004 3]) = State.resetFor chip := by decide

/-- L2.7 row 6: word 2 of X0 reads 0 with `OPW = 64`; R53: word 1 is the upper half. -/
theorem test_x_words :
    (after { withX #v[0x123456789ABCDEF0, 0, 0, 0, 0, 0, 0, 0] with events := [memRead chip 0x1008] }).reads = [0] ∧
    (after { withX #v[0x123456789ABCDEF0, 0, 0, 0, 0, 0, 0, 0] with events := [memRead chip 0x1004] }).reads =
      [0x12345678] ∧
    (after { withX #v[0x123456789ABCDEF0, 0, 0, 0, 0, 0, 0, 0] with events := [memWrite chip 0x1004 1] }).x[0] =
      0x19ABCDEF0 := by decide

/-! ### The word of an opcode-table row runs as the first step after reset, of the chip left open -/

theorem test_runs_after_reset :
    (after (State.reset.withFetchWord 32 0x00321402)).status.errcode = .modZero ∧
    (after (State.reset.withFetchWord 32 0x00000006)).h[0] = 0x6a09e667 := by decide +kernel

/-! ### Witnesses: states and operands that meet the hypotheses of the statements -/

theorem witness_MontmulWritesMontgomeryProduct : (Instr.montmul 7 0 1 2).wf = true ∧
    (withX #v[5, 7, 0, 0, 0, 0, 0, 0]).readX 2 = 0 ∧
    ((withX #v[5, 7, 2, 0, 0, 0, 0, 0]).readX 2 ≠ 0 ∧ (withX #v[5, 7, 2, 0, 0, 0, 0, 0]).readX 2 % 2 = 0) ∧
    (withX #v[5, 7, 1, 0, 0, 0, 0, 0]).readX 2 % 2 = 1 ∧
    (withX #v[5, 7, 18446744073709551615, 0, 0, 0, 0, 0]).readX 2 % 2 = 1 := by decide

theorem witness_ModexpWritesPower : (Instr.modexp 7 0 1 2).wf = true ∧
    (withX #v[5, 7, 0, 0, 0, 0, 0, 0]).readX 2 = 0 ∧ (withX #v[5, 7, 1, 0, 0, 0, 0, 0]).readX 2 ≠ 0 := by decide

theorem witness_ModinvWritesInverse : (Instr.modinv 7 0 1).wf = true ∧
    (withX #v[5, 0, 0, 0, 0, 0, 0, 0]).readX 1 = 0 ∧
    ((withX #v[0, 7, 0, 0, 0, 0, 0, 0]).readX 1 ≠ 0 ∧
      Nat.gcd ((withX #v[0, 7, 0, 0, 0, 0, 0, 0]).readX 0) ((withX #v[0, 7, 0, 0, 0, 0, 0, 0]).readX 1) ≠ 1) ∧
    ((withX #v[3, 1, 0, 0, 0, 0, 0, 0]).readX 1 ≠ 0 ∧
      Nat.gcd ((withX #v[3, 1, 0, 0, 0, 0, 0, 0]).readX 0) ((withX #v[3, 1, 0, 0, 0, 0, 0, 0]).readX 1) = 1) := by
  decide

theorem witness_GcdWritesGreatestCommonDivisor : (Instr.gcd 7 7 0).wf = true := by decide

theorem witness_MrwitWritesWitnessBit : (Instr.mrwit 7 0 1).wf = true ∧
    (withX #v[5, 1, 0, 0, 0, 0, 0, 0]).readX 1 ≤ 1 ∧ 1 < (withX #v[5, 2, 0, 0, 0, 0, 0, 0]).readX 1 := by decide

theorem witness_UnselectedFieldCompletesIllField : (Instr.gcd 8 0 0).wf = false := by decide

theorem witness_ModularCommandsFrame :
    exec (.gcd 7 0 1) (withX #v[6, 4, 0, 0, 0, 0, 0, 0]) =
      .next (afterExec (.gcd 7 0 1) (withX #v[6, 4, 0, 0, 0, 0, 0, 0])) ∧
    (afterExec (.gcd 7 0 1) (withX #v[6, 4, 0, 0, 0, 0, 0, 0])).x = #v[6, 4, 0, 0, 0, 0, 0, 2] :=
  ⟨rfl, by decide⟩

theorem witness_MrwitFrame :
    exec (.mrwit 7 0 1) (withX #v[2, 9, 0, 0, 0, 0, 0, 0]) =
      .next (afterExec (.mrwit 7 0 1) (withX #v[2, 9, 0, 0, 0, 0, 0, 0])) ∧
    (withX #v[2, 1, 0, 0, 0, 0, 0, 0]).readX 1 ≤ 1 :=
  ⟨rfl, by decide⟩

theorem witness_ShaCommandsFrame :
    exec .shacomp (State.resetFor chip) = .next (afterExec .shacomp (State.resetFor chip)) ∧
    exec .shainit (State.resetFor chip) = .next (afterExec .shainit (State.resetFor chip)) := ⟨rfl, rfl⟩

theorem witness_ErrorCompletionChangesOnlyStatus :
    (State.resetFor chip).status.err = false ∧
    exec (.modexp 0 0 0 0) (State.resetFor chip) = .next (afterExec (.modexp 0 0 0 0) (State.resetFor chip)) ∧
    (afterExec (.modexp 0 0 0 0) (State.resetFor chip)).status.err = true := ⟨rfl, rfl, rfl⟩

theorem witness_DecodeOfEncode : (Instr.mrwit 7 7 7).wf = true := by decide

theorem witness_EncodeOfDecode : decode 0x00777701 = .ok (.montmul 7 7 7 7) := by decide

theorem witness_IllegalWordCompletesWithItsError :
    (running 8 (Vector.replicate 8 0) [.engine]).status.busy = true ∧
    ((running 8 (Vector.replicate 8 0) [.engine]).events = .engine :: [] ∨
      (running 8 (Vector.replicate 8 0) [.engine]).events = [] ∧ ([] : List Event) = []) ∧
    (running 8 (Vector.replicate 8 0) []).status.busy = true ∧
    ((running 8 (Vector.replicate 8 0) []).events = .engine :: [] ∨
      (running 8 (Vector.replicate 8 0) []).events = [] ∧ ([] : List Event) = []) ∧
    ReservedOp 0 ∧ ReservedOp 8 ∧ ReservedOp 0x010000FF ∧
    (¬ ReservedOp 0x01000003 ∧ ¬ LegalFields 0x01000003) ∧ (¬ ReservedOp 0x00000801 ∧ ¬ LegalFields 0x00000801) ∧
    (¬ ReservedOp 0x00000107 ∧ ¬ LegalFields 0x00000107) := by
  unfold ReservedOp LegalFields
  refine ⟨by decide, by decide, by decide, by decide, by decide, by decide, by decide, ⟨by decide, by decide⟩,
    ⟨by decide, by decide⟩, by decide, by decide⟩

theorem witness_StepRunsTheDecodedCommand :
    (running 7 (Vector.replicate 8 0) []).status.busy = true ∧
    decode (running 7 (Vector.replicate 8 0) []).cmdlatch = .ok .shacomp ∧
    (running 7 (Vector.replicate 8 0) []).events = [] ∧
    (running 7 (Vector.replicate 8 0) [.engine]).events = .engine :: [] ∧
    decodeTableWord 32 7 = some .shacomp := by decide

theorem witness_IdleEngineHoldsTheState :
    (withEvents []).status.busy = false ∧ (withEvents []).events = [] ∧
    (withEvents [.engine]).status.busy = false ∧ (withEvents [.engine]).events = .engine :: [] ∧
    (withEvents []).Ended ∧ (withEvents [.engine, .engine]).Ended := by
  unfold State.Ended
  decide

theorem witness_CmdWriteIssues :
    (withEvents [memWrite chip 0x00C 0xFFFFFFFF]).status.busy = false ∧
    (withEvents [memWrite chip 0x00C 0xFFFFFFFF]).events = memWrite chip 0x00C 0xFFFFFFFF :: [] := by decide

theorem witness_CmdWriteWhileBusyIsDropped :
    (running 7 (Vector.replicate 8 0) [memWrite chip 0x00C 6]).status.busy = true ∧
    (running 7 (Vector.replicate 8 0) [memWrite chip 0x00C 6]).events = memWrite chip 0x00C 6 :: [] := by decide

theorem witness_StatusWriteClearsByOne :
    (withEvents [memWrite chip 0x008 0xE]).events = memWrite chip 0x008 0xE :: [] := by decide

theorem witness_CtrlWriteResetsOrSetsIE :
    (withEvents [memWrite chip 0x004 3]).events = memWrite chip 0x004 3 :: [] ∧
    (3 : Word).getLsbD 1 = true ∧ (1 : Word).getLsbD 1 = false := by decide

/-- The last H, M and X word of the map. -/
theorem witness_DataWritesWhileBusyAreIgnored :
    chip.valid = true ∧ (running 7 (Vector.replicate 8 0) [memWrite chip 0x11C 6]).status.busy = true ∧
    0x11C = 0x100 + 4 * 7 ∧ 0x17C = 0x140 + 4 * 15 ∧ 1 < chip.nw ∧ 0x2C04 = 0x1000 + 0x400 * 7 + 4 * 1 ∧
    (running 7 (Vector.replicate 8 0) [memWrite chip 0x2C04 6]).events = memWrite chip 0x2C04 6 :: [] := by decide

/-- Word 1 of X7 is its last with `OPW = 64`, word 2 the first reserved one, word 255 the last of the map. -/
theorem witness_XWordReadAndWrite :
    chip.valid = true ∧ 1 < chip.nw ∧ chip.nw ≤ 2 ∧ chip.nw ≤ 255 ∧
    (withEvents [memRead chip (0x1000 + 0x400 * 7 + 4 * 1)]).status.busy = false ∧
    (withEvents [memRead chip (0x1000 + 0x400 * 7 + 4 * 1)]).events =
      memRead chip (0x1000 + 0x400 * 7 + 4 * 1) :: [] ∧
    (withEvents [memWrite chip (0x1000 + 0x400 * 7 + 4 * 255) 5]).events =
      memWrite chip (0x1000 + 0x400 * 7 + 4 * 255) 5 :: [] := by decide

theorem witness_HashAndMessageReadAndWrite :
    (withEvents [memWrite chip (0x140 + 4 * 15) 5]).status.busy = false ∧
    (withEvents [memWrite chip (0x140 + 4 * 15) 5]).events = memWrite chip (0x140 + 4 * 15) 5 :: [] ∧
    (withEvents [memRead chip (0x100 + 4 * 7)]).events = memRead chip (0x100 + 4 * 7) :: [] := by decide

/-- Both ends of a reserved range. -/
theorem witness_ReservedOffsetsReadZero :
    0x3FFC % 4 = 0 ∧ 0x3000 ≤ 0x3FFC ∧ 0x3FFC < 0x4000 ∧
    (withEvents [memRead chip 0x3FFC]).events = memRead chip 0x3FFC :: [] ∧
    (withEvents [memWrite chip 0x010 1]).events = memWrite chip 0x010 1 :: [] ∧
    (withEvents [memWrite chip 0x000 1]).events = memWrite chip 0x000 1 :: [] := by decide

theorem witness_ReadsHaveNoSideEffect :
    0x100 % 4 = 0 ∧ 0x100 < 0x4000 ∧
    (withEvents [memRead chip 0x100, memRead chip 0x100]).events = memRead chip 0x100 :: memRead chip 0x100 :: [] ∧
    (withEvents [memRead chip 0x100, memRead chip 0x100]).inFlight (windowReg chip.nw 0x100) = false := by decide

/-- A read of the running MODEXP's RD (X4), of a running SHACOMP's H7, and of registers that are neither. -/
theorem witness_BusyReadOfDestinationIsFree :
    chip.valid = true ∧ decode 0x00321402 = .ok (.modexp 4 1 2 3) ∧
    (running 0x00321402 (Vector.replicate 8 0) [memRead chip 0x2004]).status.busy = true ∧
    (running 0x00321402 (Vector.replicate 8 0) [memRead chip 0x2004]).events = memRead chip 0x2004 :: [] ∧
    (destX (.modexp 4 1 2 3) = some 4 ∧ 1 < chip.nw ∧ 0x2004 = 0x1000 + 0x400 * (4 : RegField).toNat + 4 * 1) ∧
    (decode 8 = .error .illOp ∧ (running 8 (Vector.replicate 8 0) [memRead chip 0x2004]).status.busy = true ∧
      (running 8 (Vector.replicate 8 0) [memRead chip 0x2004]).events = memRead chip 0x2004 :: []) ∧
    (decode 7 = .ok .shacomp ∧ 0x100 ≤ 0x11C ∧ 0x11C < 0x120) ∧ (destX .shacomp = none ∧ ¬ 0x140 < 0x120) := by
  decide

theorem witness_OddAccessesAreRefused :
    (withEvents [.access ⟨0, 0x8000, 16, .read⟩]).events = .access ⟨0, 0x8000, 16, .read⟩ :: [] ∧
    (16 ≠ 32 ∧ inWindow chip 0x8002 = true ∧ (0x8002 - chip.base) % 4 ≠ 0) := by decide

theorem witness_ForeignAccessesStop :
    (withEvents [.access ⟨1, 0x8000, 32, .read⟩]).events = .access ⟨1, 0x8000, 32, .read⟩ :: [] ∧
    (withEvents [.access ⟨0, 0xC000, 32, .read⟩]).events = .access ⟨0, 0xC000, 32, .read⟩ :: [] ∧
    chip.base + 0x4000 ≤ 0xC000 ∧ 0x7FFC < chip.base := by decide

theorem witness_StatusControlAndCmdReads :
    (withEvents [memRead chip 0x008]).events = memRead chip 0x008 :: [] := by decide

theorem witness_InfoIsConstant :
    chip.valid = true ∧ (withEvents [memRead chip 0x000]).events = memRead chip 0x000 :: [] ∧
    ({ chip with opw := 2048 } : Params).valid = true := by decide

theorem witness_IrqFollowsEnableAndDone :
    exec .shainit (State.resetFor chip) = .next (afterExec .shainit (State.resetFor chip)) ∧
    (State.resetFor chip).status.busy = false ∧ (running 7 (Vector.replicate 8 0) []).status.busy = true ∧
    (2 : Word).getLsbD 1 = true := ⟨rfl, rfl, rfl, rfl⟩

theorem chip_inv (x : Vector Nat 8) (hx : ∀ i : Fin 8, x[i] < 2 ^ 64) (es : List Event) :
    State.Inv { withX x with events := es } :=
  ⟨show chip.valid = true by decide, hx, show Status.cleared.Coherent from ⟨nofun, by constructor <;> nofun⟩⟩

/-- The largest value of a register. -/
theorem witness_StepKeepsInvariant :
    State.Inv { withX #v[18446744073709551615, 3, 0, 0, 0, 0, 0, 0] with events := [memWrite chip 0x1000 0] } ∧
    step { withX #v[18446744073709551615, 3, 0, 0, 0, 0, 0, 0] with events := [memWrite chip 0x1000 0] } =
      .next (after { withX #v[18446744073709551615, 3, 0, 0, 0, 0, 0, 0] with events := [memWrite chip 0x1000 0] }) :=
  ⟨chip_inv _ (by decide) _, step_eq_after _ (by decide)⟩

theorem witness_FlagChangesOnlyByMrwit :
    step (running 0x00201305 #v[0, 2, 561, 0, 0, 0, 0, 0] [.engine]) =
      .next (after (running 0x00201305 #v[0, 2, 561, 0, 0, 0, 0, 0] [.engine])) ∧
    (after (running 0x00201305 #v[0, 2, 561, 0, 0, 0, 0, 0] [.engine])).status.flag ≠
      (running 0x00201305 #v[0, 2, 561, 0, 0, 0, 0, 0] [.engine]).status.flag := ⟨rfl, by decide +kernel⟩

theorem witness_MessageChangesOnlyByHost :
    step (withEvents [memWrite chip 0x17C 5]) = .next (after (withEvents [memWrite chip 0x17C 5])) ∧
    (after (withEvents [memWrite chip 0x17C 5])).m[(15 : Fin 16)] ≠ (withEvents [memWrite chip 0x17C 5]).m[(15 : Fin 16)] :=
  ⟨step_eq_after _ (by decide), by decide⟩

theorem witness_XChangesOnlyByHostOrResult :
    step (withEvents [memWrite chip 0x2C04 5]) = .next (after (withEvents [memWrite chip 0x2C04 5])) ∧
    (after (withEvents [memWrite chip 0x2C04 5])).x[(7 : Fin 8)] ≠ (withEvents [memWrite chip 0x2C04 5]).x[(7 : Fin 8)] :=
  ⟨step_eq_after _ (by decide), by decide⟩

theorem witness_HashChangesOnlyByHostOrSha :
    step (running 6 (Vector.replicate 8 0) []) = .next (after (running 6 (Vector.replicate 8 0) [])) ∧
    (after (running 6 (Vector.replicate 8 0) [])).h[(7 : Fin 8)] ≠ (running 6 (Vector.replicate 8 0) []).h[(7 : Fin 8)] :=
  ⟨rfl, by decide⟩

theorem witness_CmdlatchChangesOnlyByIssue :
    step (withEvents [memWrite chip 0x00C 5]) = .next (after (withEvents [memWrite chip 0x00C 5])) ∧
    (after (withEvents [memWrite chip 0x00C 5])).cmdlatch ≠ (withEvents [memWrite chip 0x00C 5]).cmdlatch :=
  ⟨rfl, by decide⟩

theorem witness_BusyRisesByIssueFallsByCompletion :
    (step (withEvents [memWrite chip 0x00C 5]) = .next (after (withEvents [memWrite chip 0x00C 5])) ∧
      (withEvents [memWrite chip 0x00C 5]).status.busy = false ∧
      (after (withEvents [memWrite chip 0x00C 5])).status.busy = true) ∧
    (step (running 6 (Vector.replicate 8 0) []) = .next (after (running 6 (Vector.replicate 8 0) [])) ∧
      (running 6 (Vector.replicate 8 0) []).status.busy = true ∧
      (after (running 6 (Vector.replicate 8 0) [])).status.busy = false) :=
  ⟨⟨rfl, by decide, by decide⟩, ⟨rfl, by decide, by decide⟩⟩

/-- The first and the last word of the window. -/
theorem witness_SafeRuns : (withEvents [memRead chip 0x0000, memWrite chip 0x3FFC 1, .engine]).Safe := by
  unfold State.Safe
  decide

theorem witness_RacesHaveBothOutcomes :
    (running 7 (Vector.replicate 8 0) [.engine, memWrite chip 0x00C 6]).status.busy = true ∧
    (running 7 (Vector.replicate 8 0) [.engine, memWrite chip 0x00C 6]).events = [.engine, memWrite chip 0x00C 6] ∧
    (running 7 (Vector.replicate 8 0) [memWrite chip 0x00C 6, .engine]).events = [memWrite chip 0x00C 6, .engine] ∧
    (running 7 (Vector.replicate 8 0) [memWrite chip 0x008 6, .engine]).events = [memWrite chip 0x008 6, .engine] ∧
    (running 7 (Vector.replicate 8 0) [.engine, memWrite chip 0x008 6]).events = [.engine, memWrite chip 0x008 6] ∧
    (6 : Word).getLsbD 1 = true := by decide

theorem witness_DataWritesAreIdempotent : ∃ i j, WindowReg.x 7 1 = .x i j := ⟨7, 1, rfl⟩

/-- Two states that differ in a register the command does not read. -/
theorem witness_CommandsArePureFunctions :
    (∀ r ∈ (Instr.gcd 7 0 1).fields.tail,
      (withX #v[6, 4, 0, 0, 0, 0, 0, 0]).readX r = (withX #v[6, 4, 9, 9, 0, 0, 0, 8]).readX r) ∧
    (withX #v[6, 4, 0, 0, 0, 0, 0, 0]).status.err = false ∧
    (withX #v[6, 4, 0, 0, 0, 0, 0, 0]).status.errcode = .none ∧
    exec (.gcd 7 0 1) (withX #v[6, 4, 0, 0, 0, 0, 0, 0]) =
      .next (afterExec (.gcd 7 0 1) (withX #v[6, 4, 0, 0, 0, 0, 0, 0])) ∧
    exec (.gcd 7 0 1) (withX #v[6, 4, 9, 9, 0, 0, 0, 8]) =
      .next (afterExec (.gcd 7 0 1) (withX #v[6, 4, 9, 9, 0, 0, 0, 8])) ∧
    (afterExec (.gcd 7 0 1) (withX #v[6, 4, 0, 0, 0, 0, 0, 0])).status.err = false :=
  ⟨by decide, rfl, rfl, rfl, rfl, rfl⟩

theorem witness_OnlyMontmulDependsOnOpw :
    (∀ rd ra rb rn, Instr.shainit ≠ .montmul rd ra rb rn) ∧
    exec .shainit (State.resetFor chip) = .next (afterExec .shainit (State.resetFor chip)) := ⟨nofun, rfl⟩

theorem witness_WiringIsUnobservable :
    step (withEvents [memRead chip 0x000]) = .next (after (withEvents [memRead chip 0x000])) := rfl

theorem witness_RedcEqualsMontgomeryProduct :
    97 % 2 = 1 ∧ 18446744073709551615 < 2 ^ (32 * 2) ∧ redc 2 5 7 97 = 61 := by decide +kernel

theorem witness_MontgomeryConversionMultiplies : 3233 % 2 = 1 ∧ 1 % 2 = 1 := by decide

/-- The least prime, and one of R146. -/
theorem witness_PrimesHaveNoWitness : (Instr.mrwit 3 1 2).wf = true ∧
    (Nat.Prime ((withX #v[0, 1, 2, 0, 0, 0, 0, 0]).readX 2) ∧
      (withX #v[0, 1, 2, 0, 0, 0, 0, 0]).readX 1 % (withX #v[0, 1, 2, 0, 0, 0, 0, 0]).readX 2 ≠ 0) ∧
    (Nat.Prime ((withX #v[0, 2, 97, 0, 0, 0, 0, 0]).readX 2) ∧
      (withX #v[0, 2, 97, 0, 0, 0, 0, 0]).readX 1 % (withX #v[0, 2, 97, 0, 0, 0, 0, 0]).readX 2 ≠ 0) := by
  refine ⟨by decide, ⟨?_, by decide⟩, ⟨?_, by decide⟩⟩
  · change Nat.Prime 2
    norm_num
  · change Nat.Prime 97
    norm_num

theorem witness_WitnessCornerBases : 1 < 2 ∧ 4 % 2 = 0 ∧ 3 % 2 = 1 ∧ 96 % 97 = 97 - 1 := by decide

theorem witness_ShaWordOperationsBitwise : 0 < 1 ∧ 31 < 32 := by decide

/-- One block, of zeros, from the reset state. -/
theorem witness_ChainedBlocksFoldCompress :
    ∃ (blocks : List (Vector Word 16)) (states : Nat → State), blocks.length = 1 ∧
      ∀ k (hk : k < blocks.length), exec .shacomp { states k with m := blocks[k] } = .next (states (k + 1)) := by
  refine ⟨[Vector.replicate 16 0],
    fun k => if k = 0 then State.resetFor chip else afterExec .shacomp (State.resetFor chip), rfl, ?_⟩
  intro k hk
  obtain rfl : k = 0 := by simpa using hk
  rfl

theorem witness_WrxLoadsTheRegister :
    State.Inv { withX (Vector.replicate 8 9) with events := wrx chip 7 18446744073709551615 ++ [.engine] } ∧
    18446744073709551615 < 2 ^ chip.opw ∧ (withX (Vector.replicate 8 9)).status.busy = false :=
  ⟨chip_inv _ (by decide) _, by decide, rfl⟩

theorem witness_RdxReadsTheRegister :
    State.Inv { withX (Vector.replicate 8 9) with events := rdx chip 7 ++ [.engine] } ∧
    (withX (Vector.replicate 8 9)).status.busy = false :=
  ⟨chip_inv _ (by decide) _, rfl⟩

end Sys2Proof.Tests
end

section
/-!
PROOFS. Scope (spec/00_scope.md): a command is a pure function of what it reads (R14). Two states that agree on what a command
reads complete it alike, and from completions that are alike the result and the error are read off.
-/

namespace Sys2Proof.Machine

/-- What a register field reads after a write through the same field: the value, if the field selects a register (R82). -/
@[simp] theorem State.readX_writeX_same (s : State) (r : RegField) (v : Nat) :
    (s.writeX r v).readX r = if r.toNat < NXREG then v else 0 := by
  unfold State.readX
  split
  · next hr => simp [hr]
  · next hr => simp [hr]

@[simp] theorem State.readX_complete (s : State) (r : RegField) : s.complete.readX r = s.readX r := rfl

@[simp] theorem State.readX_setFlag (s : State) (w : Bool) (r : RegField) : (s.setFlag w).readX r = s.readX r := rfl

/-- A command that writes an X register writes no H register (R83). -/
theorem destH_eq_false_of_destX {i : Instr} {rd : RegField} (h : destX i = some rd) : destH i = false := by
  cases i with
  | shainit => cases h
  | shacomp => cases h
  | _ => rfl

/-- The states agree on what the command reads: OPW, its source registers and, for SHACOMP, H and M (R14). -/
structure SameSources (i : Instr) (s s' : State) : Prop where
  opw : s.params.opw = s'.params.opw
  x : ∀ r ∈ i.fields.tail, s.readX r = s'.readX r
  hash : i = .shacomp → s.h = s'.h ∧ s.m = s'.m

/-- Two completions of one command, from `s` and from `s'`, that are alike (`Completion` says what each can be): the same error,
or the same value written to the same register. -/
inductive SameCompletion (i : Instr) (s s' : State) : State → State → Prop where
  | error (c : ErrCode) : SameCompletion i s s' (s.raiseCmdError c) (s'.raiseCmdError c)
  | result (rd : RegField) (v : Nat) (hd : destX i = some rd) (hne : ∀ d a n, i ≠ .mrwit d a n) :
      SameCompletion i s s' (s.writeX rd v).complete (s'.writeX rd v).complete
  | witness (rd ra rn : RegField) (w : Bool) (hi : i = .mrwit rd ra rn) :
      SameCompletion i s s' ((s.writeX rd w.toNat).setFlag w).complete ((s'.writeX rd w.toNat).setFlag w).complete
  | digest (h : Vector Word 8) (hd : destX i = none) :
      SameCompletion i s s' (s.writeH h).complete (s'.writeH h).complete

section
variable {i : Instr} {s s' t t' : State}

/-- Whether a term is well-formed does not depend on the state, so the frame of a meaning keeps completions alike (R82). -/
theorem SameCompletion.withOperands {rule rule' : State} (hrule : SameCompletion i s s' rule rule')
    (h : s.withOperands i rule = .next t) (h' : s'.withOperands i rule' = .next t') : SameCompletion i s s' t t' := by
  rw [State.withOperands_eq] at h h'
  cases h
  cases h'
  split
  · exact hrule
  · exact .error _

theorem execMontmul_sameCompletion {rd ra rb rn : RegField} (hs : SameSources (.montmul rd ra rb rn) s s')
    (h : execMontmul rd ra rb rn s = .next t) (h' : execMontmul rd ra rb rn s' = .next t') :
    SameCompletion (.montmul rd ra rb rn) s s' t t' := by
  refine SameCompletion.withOperands ?_ h h'
  rw [hs.opw, hs.x ra (by simp [Instr.fields]), hs.x rb (by simp [Instr.fields]), hs.x rn (by simp [Instr.fields])]
  repeat' split
  · exact .error _
  · exact .error _
  · exact .result _ _ rfl nofun

theorem execModexp_sameCompletion {rd ra rb rn : RegField} (hs : SameSources (.modexp rd ra rb rn) s s')
    (h : execModexp rd ra rb rn s = .next t) (h' : execModexp rd ra rb rn s' = .next t') :
    SameCompletion (.modexp rd ra rb rn) s s' t t' := by
  refine SameCompletion.withOperands ?_ h h'
  rw [hs.x ra (by simp [Instr.fields]), hs.x rb (by simp [Instr.fields]), hs.x rn (by simp [Instr.fields])]
  split
  · exact .error _
  · exact .result _ _ rfl nofun

theorem execGcd_sameCompletion {rd ra rb : RegField} (hs : SameSources (.gcd rd ra rb) s s')
    (h : execGcd rd ra rb s = .next t) (h' : execGcd rd ra rb s' = .next t') :
    SameCompletion (.gcd rd ra rb) s s' t t' := by
  refine SameCompletion.withOperands ?_ h h'
  rw [hs.x ra (by simp [Instr.fields]), hs.x rb (by simp [Instr.fields])]
  exact .result _ _ rfl nofun

theorem execModinv_sameCompletion {rd ra rn : RegField} (hs : SameSources (.modinv rd ra rn) s s')
    (h : execModinv rd ra rn s = .next t) (h' : execModinv rd ra rn s' = .next t') :
    SameCompletion (.modinv rd ra rn) s s' t t' := by
  refine SameCompletion.withOperands ?_ h h'
  rw [hs.x ra (by simp [Instr.fields]), hs.x rn (by simp [Instr.fields])]
  split
  · exact .error _
  · cases modInv? (s'.readX ra) (s'.readX rn) with
    | none => exact .error _
    | some y => exact .result _ _ rfl nofun

theorem execMrwit_sameCompletion {rd ra rn : RegField} (hs : SameSources (.mrwit rd ra rn) s s')
    (h : execMrwit rd ra rn s = .next t) (h' : execMrwit rd ra rn s' = .next t') :
    SameCompletion (.mrwit rd ra rn) s s' t t' := by
  refine SameCompletion.withOperands ?_ h h'
  rw [hs.x ra (by simp [Instr.fields]), hs.x rn (by simp [Instr.fields])]
  split
  · exact .error _
  · exact .witness _ _ _ _ rfl

theorem execShainit_sameCompletion (h : execShainit s = .next t) (h' : execShainit s' = .next t') :
    SameCompletion .shainit s s' t t' :=
  SameCompletion.withOperands (.digest initialHash rfl) h h'

theorem execShacomp_sameCompletion (hs : SameSources .shacomp s s')
    (h : execShacomp s = .next t) (h' : execShacomp s' = .next t') : SameCompletion .shacomp s s' t t' := by
  obtain ⟨hh, hm⟩ := hs.hash rfl
  refine SameCompletion.withOperands ?_ h h'
  rw [hh, hm]
  exact .digest _ rfl

/-- States that agree on what a command reads complete it alike (R14). -/
theorem exec_sameCompletion (hs : SameSources i s s') (h : exec i s = .next t) (h' : exec i s' = .next t') :
    SameCompletion i s s' t t' := by
  cases i with
  | montmul rd ra rb rn => exact execMontmul_sameCompletion hs h h'
  | modexp rd ra rb rn => exact execModexp_sameCompletion hs h h'
  | gcd rd ra rb => exact execGcd_sameCompletion hs h h'
  | modinv rd ra rn => exact execModinv_sameCompletion hs h h'
  | mrwit rd ra rn => exact execMrwit_sameCompletion hs h h'
  | shainit => exact execShainit_sameCompletion h h'
  | shacomp => exact execShacomp_sameCompletion hs h h'

/-- Completions that are alike leave ERR alike, if it was alike before. -/
theorem SameCompletion.err_eq (hc : SameCompletion i s s' t t') (he : s.status.err = s'.status.err) :
    t.status.err = t'.status.err := by
  cases hc with
  | error c => rfl
  | result => exact he
  | witness => exact he
  | digest => exact he

/-- Completions that are alike leave ERRCODE alike, if it was alike before. -/
theorem SameCompletion.errcode_eq (hc : SameCompletion i s s' t t') (he : s.status.errcode = s'.status.errcode) :
    t.status.errcode = t'.status.errcode := by
  cases hc with
  | error c => rfl
  | result => exact he
  | witness => exact he
  | digest => exact he

/-- Completions that are alike, and without error, leave the same value in RD. -/
theorem SameCompletion.readX_destX_eq (hc : SameCompletion i s s' t t') (ht : t.status.err = false)
    {rd : RegField} (hrd : destX i = some rd) : t.readX rd = t'.readX rd := by
  cases hc with
  | error c => cases ht
  | result d v hd _ =>
    obtain rfl : d = rd := by simpa [hd] using hrd
    simp
  | witness d a n w hi =>
    subst hi
    obtain rfl : d = rd := by simpa [destX] using hrd
    simp
  | digest h hd => simp [hd] at hrd

/-- Completions of MRWIT that are alike, and without error, leave the same FLAG. -/
theorem SameCompletion.flag_eq {rd ra rn : RegField} (hc : SameCompletion (.mrwit rd ra rn) s s' t t')
    (ht : t.status.err = false) : t.status.flag = t'.status.flag := by
  cases hc with
  | error c => cases ht
  | result d v _ hne => exact absurd rfl (hne rd ra rn)
  | witness d a n w _ => rfl
  | digest h hd => cases hd

/-- Completions that are alike, and without error, of a command that writes H leave the same H. -/
theorem SameCompletion.h_eq (hc : SameCompletion i s s' t t') (ht : t.status.err = false)
    (hh : destH i = true) : t.h = t'.h := by
  cases hc with
  | error c => cases ht
  | result d v hd _ => simp [destH_eq_false_of_destX hd] at hh
  | witness d a n w hi => subst hi; cases hh
  | digest h _ => rfl

end

end Sys2Proof.Machine

open Sys2Proof.Machine in
/-- Settles O49: the two completions are alike, so error, RD, FLAG and H agree where the command determines them. -/
theorem commandsArePureFunctions : Obligations.CommandsArePureFunctions := by
  intro i s t s' t' hopw hx hhash herr hcode herr' hcode' h h'
  have hc : SameCompletion i s s' t t' := exec_sameCompletion ⟨hopw, hx, hhash⟩ h h'
  refine ⟨hc.err_eq (herr.trans herr'.symm), hc.errcode_eq (hcode.trans hcode'.symm), fun ht => ⟨?_, ?_, ?_⟩⟩
  · exact fun rd hrd => hc.readX_destX_eq ht hrd
  · rintro rd ra rn rfl
    exact hc.flag_eq ht
  · exact hc.h_eq ht
end

section
/-!
PROOFS. State (spec/10_state.md): what the host's accesses to STATUS, CTRL, INFO and CMD do, and the interrupt level. First the
four offsets in the map and an equation for each effect of a write, then the words that are read, then the level of IRQ.
-/

namespace Sys2Proof

/-- An error code fits the four bits of ERRCODE (R30). -/
theorem ErrCode.code_lt (c : ErrCode) : c.code < 2 ^ 4 := by
  cases c <;> decide

end Sys2Proof

namespace Sys2Proof.Machine

/-! ### The control registers in the window map (R51) -/

@[simp] theorem windowReg_info (nw : Nat) : windowReg nw 0x000 = .info := rfl
@[simp] theorem windowReg_ctrl (nw : Nat) : windowReg nw 0x004 = .ctrl := rfl
@[simp] theorem windowReg_status (nw : Nat) : windowReg nw 0x008 = .status := rfl
@[simp] theorem windowReg_cmd (nw : Nat) : windowReg nw 0x00C = .cmd := rfl

/-! ### A host access to each of them -/

section
variable {s : State} {v : Word}

@[simp] theorem State.hostWrite_info : s.hostWrite .info v = s := rfl

@[simp] theorem State.hostWrite_status : s.hostWrite .status v = { s with status := s.status.clearBy v } := rfl

theorem State.hostWrite_ctrl_reset (hv : v.getLsbD 1 = true) : s.hostWrite .ctrl v = s.softReset :=
  if_pos hv

theorem State.hostWrite_ctrl_enable (hv : v.getLsbD 1 = false) :
    s.hostWrite .ctrl v = { s with ie := v.getLsbD 0 } :=
  if_neg (ne_true_of_eq_false hv)

theorem State.hostWrite_cmd_idle (hb : s.status.busy = false) : s.hostWrite .cmd v = s.issue v :=
  if_neg (ne_true_of_eq_false hb)

theorem State.hostWrite_cmd_busy (hb : s.status.busy = true) : s.hostWrite .cmd v = s.dropCommand :=
  if_pos hb

end

/-- No command writes INFO, so a read of it answers the constant (R37, R62). -/
@[simp] theorem State.inFlight_info (s : State) : s.inFlight .info = false := by
  unfold State.inFlight
  cases decode s.cmdlatch with
  | ok i => exact Bool.and_false _
  | error c => exact Bool.and_false _

theorem State.hostRead_info (s : State) : s.hostRead .info = s.answer (infoWord s.params) :=
  if_neg (by simp)

/-! ### The words that are read -/

/-- STATUS as a number: five flag bits, and ERRCODE from bit 8 on (R26). -/
theorem Status.toWord_toNat (st : Status) :
    ∃ flags < 2 ^ 5, st.toWord.toNat = 2 ^ 8 * st.errcode.code + flags := by
  have hc := st.errcode.code_lt
  have hbusy := st.busy.toNat_lt
  have hdone := st.done.toNat_lt
  have herr := st.err.toNat_lt
  have hovr := st.ovr.toNat_lt
  have hflag := st.flag.toNat_lt
  refine ⟨st.busy.toNat + st.done.toNat * 2 ^ 1 + st.err.toNat * 2 ^ 2 + st.ovr.toNat * 2 ^ 3
    + st.flag.toNat * 2 ^ 4, by omega, ?_⟩
  rw [Status.toWord, BitVec.toNat_ofNat]
  omega

/-- The reserved bits of STATUS read as 0 (R26). -/
theorem Status.toWord_reserved (st : Status) {k : Nat} (hk : (5 ≤ k ∧ k ≤ 7) ∨ 12 ≤ k) :
    st.toWord.getLsbD k = false := by
  obtain ⟨flags, hflags, hw⟩ := st.toWord_toNat
  rw [BitVec.getLsbD, hw, Nat.testBit_two_pow_mul_add _ (by omega)]
  split
  · exact Nat.testBit_lt_two_pow (hflags.trans_le (Nat.pow_le_pow_right (by omega) (by omega)))
  · exact Nat.testBit_lt_two_pow (st.errcode.code_lt.trans_le (Nat.pow_le_pow_right (by omega) (by omega)))

/-- A write to STATUS clears by the ones of the word written (R33). -/
theorem Status.clearBy_eq (st : Status) (v : Word) :
    st.clearBy v = { st with
      done := if v.getLsbD 1 then false else st.done
      err := if v.getLsbD 2 then false else st.err
      errcode := if v.getLsbD 2 then .none else st.errcode
      ovr := if v.getLsbD 3 then false else st.ovr } := by
  simp [Status.clearBy, Bool.and_comm]

/-- SRST reads as 0 (R34, R36). -/
theorem State.ctrlWord_srst (s : State) : s.ctrlWord.getLsbD 1 = false := by
  unfold State.ctrlWord
  cases s.ie <;> rfl

/-- The three fields of INFO (R37), for an NW in its bounds. -/
theorem infoWord_fields (p : Params) (h : p.nw ≤ 256) :
    ((infoWord p).extractLsb' 0 16).toNat = p.nw ∧ (infoWord p).extractLsb' 16 8 = 8 ∧
      (infoWord p).extractLsb' 24 8 = 7 := by
  have hw := infoWord_toNat p h
  refine ⟨?_, BitVec.eq_of_toNat_eq ?_, BitVec.eq_of_toNat_eq ?_⟩
  · rw [BitVec.extractLsb'_toNat, hw, Nat.shiftRight_zero]
    omega
  · rw [BitVec.extractLsb'_toNat, hw, Nat.shiftRight_eq_div_pow]
    change _ = 8
    omega
  · rw [BitVec.extractLsb'_toNat, hw, Nat.shiftRight_eq_div_pow]
    change _ = 7
    omega

/-- INFO depends on OPW alone, so a chip of 2048 bits reads R37's word. -/
theorem infoWord_of_opw_2048 (p : Params) (h : p.opw = 2048) : infoWord p = 0x07080040 := by
  rw [infoWord, Params.nw, h]
  rfl

/-! ### The interrupt level (R39) -/

section
variable (s : State)

@[simp] theorem State.irq_raiseCmdError (c : ErrCode) : (s.raiseCmdError c).irq = s.ie := Bool.and_true _

@[simp] theorem State.irq_complete : s.complete.irq = s.ie := Bool.and_true _

@[simp] theorem State.irq_issue (w : Word) : (s.issue w).irq = false := Bool.and_false _

@[simp] theorem State.irq_dropCommand : s.dropCommand.irq = s.irq := rfl

end

/-- A completion, with error or not, leaves IRQ at IE (R39, R195). -/
theorem Completion.irq_eq {i : Instr} {s t : State} (hc : Completion i s t) : t.irq = s.ie := by
  cases hc with
  | error c => exact s.irq_raiseCmdError c
  | result rd v => exact State.irq_complete _
  | witness rd ra rn w => exact State.irq_complete _
  | digest h => exact State.irq_complete _

/-- What `exec` answers is a completion. -/
theorem Completion.of_exec {i : Instr} {s t : State} (h : exec i s = .next t) : Completion i s t := by
  obtain ⟨u, hu, hc⟩ := exec_completion i s
  cases hu.symm.trans h
  exact hc

/-- An acknowledge, a write of 1 to STATUS bit 1, lowers IRQ (R33, R39). -/
theorem State.irq_acknowledge (s : State) {v : Word} (hv : v.getLsbD 1 = true) :
    (s.hostWrite .status v).irq = false := by
  simp [State.irq, hv]

end Sys2Proof.Machine

section
open Sys2Proof.Machine

/-- Settles O23: the step is the write to STATUS, and the word read after it has 0 in its reserved bits, as any STATUS has. -/
theorem statusWriteClearsByOne : Obligations.StatusWriteClearsByOne := by
  intro s v rest he
  refine ⟨_, step_memWrite s 0x008 v rest (by decide) (by decide) he, ?_, fun k hk => Status.toWord_reserved _ hk⟩
  rw [windowReg_status, State.hostWrite_status, Status.clearBy_eq]

/-- Settles O24: the step is the write to CTRL, by its bit 1 a soft reset or a write of IE. -/
theorem ctrlWriteResetsOrSetsIE : Obligations.CtrlWriteResetsOrSetsIE := by
  intro s v rest he
  have hstep := step_memWrite s 0x004 v rest (by decide) (by decide) he
  rw [windowReg_ctrl] at hstep
  refine ⟨fun hv => ?_, fun hv => ?_, s.ctrlWord_srst⟩
  · rw [hstep, State.hostWrite_ctrl_reset hv]
    rfl
  · rw [hstep, State.hostWrite_ctrl_enable hv]

/-- Settles O34: a read answers `infoWord`, whose fields are R37's, and a write has no effect. -/
theorem infoIsConstant : Obligations.InfoIsConstant := by
  intro s v rest hvalid
  refine ⟨fun he => ⟨infoWord s.params, ?_, ?_⟩, fun he => ?_⟩
  · rw [step_memRead s 0x000 rest (by decide) (by decide) he, windowReg_info, State.hostRead_info]
    rfl
  · obtain ⟨hnw, hxreg, hrev⟩ := infoWord_fields s.params (nw_of_valid _ hvalid).1
    exact ⟨hnw, hxreg, hrev, infoWord_of_opw_2048 _⟩
  · rw [step_memWrite s 0x000 v rest (by decide) (by decide) he, windowReg_info, State.hostWrite_info]

/-- Settles O35: the level after each operation that R195 names. -/
theorem irqFollowsEnableAndDone : Obligations.IrqFollowsEnableAndDone := by
  refine ⟨fun s => rfl, fun i s t h => (Completion.of_exec h).irq_eq, State.irq_raiseCmdError, ?issue, ?drop,
    fun s v hv => s.irq_acknowledge hv⟩
  case issue =>
    intro s v hb
    rw [State.hostWrite_cmd_idle hb, State.irq_issue]
  case drop =>
    intro s v hb
    rw [State.hostWrite_cmd_busy hb, State.irq_dropCommand]

end
end

section
/-!
PROOFS. Memory (spec/20_memory.md): what a host access to a word of a big-number register does (R53). First a read and a write
of each kind of window register that such an offset can name, then the step of an access to the offset.
-/

namespace Sys2Proof.Machine

section
variable {s : State}

/-- An idle block has no register in flight (R62). -/
theorem State.inFlight_idle (hb : s.status.busy = false) (r : WindowReg) : s.inFlight r = false := by
  rw [State.inFlight, hb, Bool.false_and]

/-- With BUSY = 0 a read answers the contents (R58, R62). -/
theorem State.hostRead_idle (hb : s.status.busy = false) (r : WindowReg) : s.hostRead r = s.answer (s.peek r) :=
  if_neg (ne_true_of_eq_false (State.inFlight_idle hb r))

/-- No command writes a reserved offset (R57). -/
@[simp] theorem State.inFlight_reserved (s : State) : s.inFlight .reserved = false := by
  unfold State.inFlight
  cases decode s.cmdlatch with
  | ok i => exact Bool.and_false _
  | error c => exact Bool.and_false _

/-- A reserved offset reads as 0, BUSY or not (R57). -/
@[simp] theorem State.hostRead_reserved (s : State) : s.hostRead .reserved = s.answer 0 :=
  if_neg (ne_true_of_eq_false s.inFlight_reserved)

/-- A write to a reserved offset is ignored, BUSY or not (R57). -/
@[simp] theorem State.hostWrite_reserved (s : State) (v : Word) : s.hostWrite .reserved v = s := rfl

/-- With BUSY = 0 a write to word `j` of Xi replaces that word (R53, R61). -/
theorem State.hostWrite_x_idle (hb : s.status.busy = false) (i : Fin 8) (j : Nat) (v : Word) :
    s.hostWrite (.x i j) v = { s with x := s.x.set i (setXWord s.x[i] j v) } :=
  if_neg (ne_true_of_eq_false hb)

/-- With BUSY = 0 a write to word `j` of Xi gives that word the value and leaves the other words of Xi (R53). -/
theorem State.xWord_hostWrite_x_idle (hb : s.status.busy = false) (i : Fin 8) (j k : Nat) (v : Word) :
    xWord (s.hostWrite (.x i j) v).x[i] k = if k = j then v else xWord s.x[i] k := by
  rw [State.hostWrite_x_idle hb]
  simpa using xWord_setXWord s.x[i] j k v

end

section
variable {s : State} {i : Fin 8} {j : Nat} {v : Word} {rest : List Event}

/-- A read at the offset of word `j` of Xi reads the word, or a reserved offset from `NW` on (R53). -/
theorem step_memRead_x (hj : j < 256) (he : s.events = memRead s.params (0x1000 + 0x400 * i + 4 * j) :: rest) :
    step s = .next ((s.afterTurn rest).hostRead (if j < s.params.nw then .x i j else .reserved)) := by
  rw [step_memRead s _ rest (by omega) (by omega) he, windowReg_x _ i j hj, State.afterTurn]

/-- A write at the offset of word `j` of Xi writes the word, or a reserved offset from `NW` on (R53). -/
theorem step_memWrite_x (hj : j < 256) (he : s.events = memWrite s.params (0x1000 + 0x400 * i + 4 * j) v :: rest) :
    step s = .next ((s.afterTurn rest).hostWrite (if j < s.params.nw then .x i j else .reserved) v) := by
  rw [step_memWrite s _ v rest (by omega) (by omega) he, windowReg_x _ i j hj, State.afterTurn]

end

end Sys2Proof.Machine

section
open Sys2Proof.Machine

/-- Settles O26: below `NW` the offset names the word, which an idle block gives
and replaces (`xWord_hostWrite_x_idle`); from `NW` on it is reserved. -/
theorem xWordReadAndWrite : Obligations.XWordReadAndWrite := by
  intro s i j v rest _ hj
  refine ⟨fun hnw hb => ?word, fun hnw => ?reserved⟩
  case word =>
    have hb' : (s.afterTurn rest).status.busy = false := hb
    refine ⟨fun he => ?_, fun he => ⟨(s.afterTurn rest).hostWrite (.x i j) v, ?_, ?_, fun k => ?_⟩⟩
    · rw [step_memRead_x hj he, if_pos hnw, State.hostRead_idle hb']
      rfl
    · rw [step_memWrite_x hj he, if_pos hnw]
    · exact State.hostWrite_x_idle hb' i j v
    · exact State.xWord_hostWrite_x_idle hb' i j k v
  case reserved =>
    refine ⟨fun he => ?_, fun he => ?_⟩
    · rw [step_memRead_x hj he, if_neg hnw.not_gt, State.hostRead_reserved]
      rfl
    · rw [step_memWrite_x hj he, if_neg hnw.not_gt, State.hostWrite_reserved]
      rfl

end
end

section
/-!
PROOFS. Encoding (spec/30_encoding.md): what a host's write to CMD does in an idle block (R94).
-/

open Sys2Proof.Machine

/-- Settles O21: the write is taken at CMD, where an idle block issues the word whatever its value, and an issue leaves IRQ low. -/
theorem cmdWriteIssues : Obligations.CmdWriteIssues := by
  intro s v rest hb he
  have hidle : (s.afterTurn rest).status.busy = false := hb
  have hstep : step s = .next ((s.afterTurn rest).issue v) := calc
    step s = .next ((s.afterTurn rest).hostWrite .cmd v) := step_memWrite s 0x00C v rest (by decide) (by decide) he
    _ = .next ((s.afterTurn rest).issue v) := by rw [State.hostWrite_cmd_idle hidle]
  exact ⟨_, hstep, State.irq_issue _ v, rfl⟩

end

section
/-!
PROOFS. Modular arithmetic (spec/40_modular_arithmetic.md): what MONTMUL, MODEXP, MODINV and GCD answer, one equation per outcome, in
the terms of the state's operations. The values are those of Laws/Arith.lean; what a statement adds is that they are unique.
-/

namespace Sys2Proof.Machine

variable {s : State} {rd ra rb rn : RegField}

/-- The frame of a meaning runs the opcode's own rule for a well-formed term (R82). -/
theorem State.withOperands_of_wf {i : Instr} (hwf : i.wf = true) (rule : State) : s.withOperands i rule = .next rule := by
  rw [State.withOperands_eq, if_pos hwf]

/-! ### GCD (R115 to R118) -/

theorem exec_gcd (hwf : (Instr.gcd rd ra rb).wf = true) :
    exec (.gcd rd ra rb) s = .next (s.writeX rd (Nat.gcd (s.readX ra) (s.readX rb))).complete := by
  rw [← euclid_eq_gcd]
  exact State.withOperands_of_wf hwf _

/-! ### MODEXP (R101 to R104) -/

theorem exec_modexp_modZero (hwf : (Instr.modexp rd ra rb rn).wf = true) (hn : s.readX rn = 0) :
    exec (.modexp rd ra rb rn) s = .next (s.raiseCmdError .modZero) :=
  (State.withOperands_of_wf hwf _).trans (by rw [if_pos hn])

theorem exec_modexp (hwf : (Instr.modexp rd ra rb rn).wf = true) (hn : s.readX rn ≠ 0) :
    exec (.modexp rd ra rb rn) s = .next (s.writeX rd (s.readX ra ^ s.readX rb % s.readX rn)).complete :=
  (State.withOperands_of_wf hwf _).trans (by rw [if_neg hn, powMod_eq])

/-! ### MODINV (R108 to R111) -/

theorem exec_modinv_modZero (hwf : (Instr.modinv rd ra rn).wf = true) (hn : s.readX rn = 0) :
    exec (.modinv rd ra rn) s = .next (s.raiseCmdError .modZero) :=
  (State.withOperands_of_wf hwf _).trans (by rw [if_pos hn])

theorem exec_modinv_noInverse (hwf : (Instr.modinv rd ra rn).wf = true) (hn : s.readX rn ≠ 0)
    (hnone : modInv? (s.readX ra) (s.readX rn) = none) :
    exec (.modinv rd ra rn) s = .next (s.raiseCmdError .noInverse) :=
  (State.withOperands_of_wf hwf _).trans (by rw [if_neg hn, hnone])

theorem exec_modinv (hwf : (Instr.modinv rd ra rn).wf = true) (hn : s.readX rn ≠ 0) {y : Nat}
    (hsome : modInv? (s.readX ra) (s.readX rn) = some y) :
    exec (.modinv rd ra rn) s = .next (s.writeX rd y).complete :=
  (State.withOperands_of_wf hwf _).trans (by rw [if_neg hn, hsome])

/-! ### MONTMUL (R122 to R126) -/

theorem exec_montmul_modZero (hwf : (Instr.montmul rd ra rb rn).wf = true) (hn : s.readX rn = 0) :
    exec (.montmul rd ra rb rn) s = .next (s.raiseCmdError .modZero) :=
  (State.withOperands_of_wf hwf _).trans (by rw [if_pos hn])

theorem exec_montmul_modEven (hwf : (Instr.montmul rd ra rb rn).wf = true) (hn : s.readX rn ≠ 0)
    (heven : s.readX rn % 2 = 0) : exec (.montmul rd ra rb rn) s = .next (s.raiseCmdError .modEven) :=
  (State.withOperands_of_wf hwf _).trans (by rw [if_neg hn, if_pos heven])

theorem exec_montmul (hwf : (Instr.montmul rd ra rb rn).wf = true) (hodd : s.readX rn % 2 = 1) :
    exec (.montmul rd ra rb rn) s =
      .next (s.writeX rd (montProduct s.params.opw (s.readX ra) (s.readX rb) (s.readX rn))).complete :=
  (State.withOperands_of_wf hwf _).trans (by rw [if_neg (by omega), if_neg (by omega)])

/-- The radix is invertible modulo an odd `n`, so a residue is determined by its product with the radix (R123). -/
theorem eq_of_mul_radix_modEq {opw n r r' : Nat} (hodd : n % 2 = 1) (hr : r < n) (hr' : r' < n)
    (h : r * 2 ^ opw ≡ r' * 2 ^ opw [MOD n]) : r = r' := by
  have hco : Nat.Coprime n (2 ^ opw) := (Nat.coprime_two_right.mpr (Nat.odd_iff.mpr hodd)).pow_right opw
  exact (Nat.ModEq.cancel_right_of_coprime hco h).eq_of_lt_of_lt hr hr'

end Sys2Proof.Machine

open Sys2Proof.Machine

/-- Settles O1: the Montgomery product meets the congruence (`montProduct_spec`), and no other residue does, as the radix cancels
modulo an odd number. -/
theorem montmulWritesMontgomeryProduct : Obligations.MontmulWritesMontgomeryProduct := by
  intro s rd ra rb rn hwf
  refine ⟨fun hzero => exec_montmul_modZero hwf hzero, fun hn heven => exec_montmul_modEven hwf hn heven, fun hodd => ?_⟩
  obtain ⟨hlt, hprod⟩ := montProduct_spec s.params.opw (s.readX ra) (s.readX rb) (s.readX rn) hodd
  refine ⟨_, ⟨hlt, hprod⟩, fun r' hlt' hprod' => ?_, exec_montmul hwf hodd⟩
  have hsame : r' * 2 ^ s.params.opw ≡ _ [MOD s.readX rn] := hprod'.trans hprod.symm
  exact eq_of_mul_radix_modEq hodd hlt' hlt hsame

/-- Settles O2: square-and-multiply is the power (`powMod_eq`). -/
theorem modexpWritesPower : Obligations.ModexpWritesPower :=
  fun _ _ _ _ _ hwf => ⟨fun hzero => exec_modexp_modZero hwf hzero, fun hn => exec_modexp hwf hn⟩

/-- Settles O3: extended Euclid finds an inverse exactly for coprime operands (`modInv?_eq_none_iff`), and there is only one below
the modulus. -/
theorem modinvWritesInverse : Obligations.ModinvWritesInverse := by
  intro s rd ra rn hwf
  refine ⟨fun hzero => exec_modinv_modZero hwf hzero, fun hn hgcd => ?noInverse, fun hn hgcd => ?inverse⟩
  case noInverse => exact exec_modinv_noInverse hwf hn ((modInv?_eq_none_iff _ _).mpr hgcd)
  case inverse =>
    have hsome : modInv? (s.readX ra) (s.readX rn) ≠ none := fun hnone => (modInv?_eq_none_iff _ _).mp hnone hgcd
    obtain ⟨y, hy⟩ := Option.ne_none_iff_exists'.mp hsome
    obtain ⟨hlt, hinv⟩ := modInv?_spec _ _ y hn hy
    exact ⟨y, ⟨hlt, hinv⟩, fun y' hlt' hinv' => inverse_unique _ _ y' y hlt' hlt hinv' hinv, exec_modinv hwf hn hy⟩

/-- Settles O4: Euclid's loop is the greatest common divisor (`euclid_eq_gcd`). -/
theorem gcdWritesGreatestCommonDivisor : Obligations.GcdWritesGreatestCommonDivisor :=
  fun _ _ _ _ hwf => exec_gcd hwf

end

section
/-!
PROOFS. Primality (spec/41_primality.md): what MRWIT answers, one equation per outcome, and R142's test read as a statement about
powers of the base.
-/

namespace Sys2Proof.Machine

section
variable {s : State} {rd ra rn : RegField}

theorem exec_mrwit_nSmall (hwf : (Instr.mrwit rd ra rn).wf = true) (hn : s.readX rn ≤ 1) :
    exec (.mrwit rd ra rn) s = .next (s.raiseCmdError .nSmall) :=
  (State.withOperands_of_wf hwf _).trans (by rw [if_pos hn])

theorem exec_mrwit (hwf : (Instr.mrwit rd ra rn).wf = true) (hn : 1 < s.readX rn) {w : Bool}
    (hw : isWitness (s.readX rn) (s.readX ra) = w) :
    exec (.mrwit rd ra rn) s = .next ((s.writeX rd w.toNat).setFlag w).complete :=
  (State.withOperands_of_wf hwf _).trans (by rw [if_neg hn.not_ge, hw])

end

/-- Squaring the residue of `a ^ d` repeatedly gives the residues of `a ^ (d * 2 ^ j)` (R142). -/
theorem pow_mod_pow_two_pow_mod (a d n j : Nat) : (a ^ d % n) ^ 2 ^ j % n = a ^ (d * 2 ^ j) % n := by
  rw [← Nat.pow_mod, ← pow_mul]

/-- A base passes R142's test exactly when its power at the odd part is 1 or `n - 1`, or a squaring of it reaches `n - 1`. -/
theorem isWitness_eq_false_iff {n a k d : Nat} (hdec : decompose n = (k, d)) :
    isWitness n a = false ↔ a ^ d % n = 1 ∨ a ^ d % n = n - 1 ∨
      ∃ j, 1 ≤ j ∧ j ≤ k - 1 ∧ a ^ (d * 2 ^ j) % n = n - 1 := by
  have hreach : reachesMinusOne n (k - 1) (a ^ d % n) = true ↔
      ∃ j, 1 ≤ j ∧ j ≤ k - 1 ∧ a ^ (d * 2 ^ j) % n = n - 1 := by
    simp only [reachesMinusOne_iff, pow_mod_pow_two_pow_mod]
  simp only [isWitness, hdec, powMod_eq]
  rw [← hreach, ← or_assoc]
  split
  · next hpass => simp [hpass]
  · next hfail => simp [hfail]

end Sys2Proof.Machine

open Sys2Proof.Machine

/-- Settles O5: the decomposition is the loop's (`decompose_spec`), and the bit is 0 when R142's test passes
(`isWitness_eq_false_iff`). -/
theorem mrwitWritesWitnessBit : Obligations.MrwitWritesWitnessBit := by
  intro s rd ra rn hwf
  refine ⟨fun hsmall => exec_mrwit_nSmall hwf hsmall, fun hn => ?_⟩
  obtain ⟨hodd, hprod⟩ := decompose_spec (s.readX rn) hn
  exact ⟨_, _, _, hprod.symm, hodd, isWitness_eq_false_iff rfl, exec_mrwit hwf hn rfl⟩

end

section
/-!
PROOFS. SHA-256 (spec/42_sha256.md): SHAINIT and SHACOMP each answer one completion. The schedule obeys R166's recurrence
because extending it never changes a word already made. R167's rounds are a fold, and the fold over the first `t` constants
and schedule words gives the working variables before round `t`.
-/

namespace Sys2Proof.Machine

/-! ### The schedule (R166) -/

theorem length_extendSchedule (k : Nat) (newest : List Word) :
    (extendSchedule k newest).length = k + newest.length := by
  induction k generalizing newest with
  | zero => simp [extendSchedule]
  | succ k ih => simp [extendSchedule, ih]; omega

@[simp] theorem length_schedule (m : Vector Word 16) : (schedule m).length = 64 := by
  simp [schedule, length_extendSchedule]

/-- Word `t` of a schedule that is kept newest first. -/
def wordAt (newest : List Word) (t : Nat) : Word := newest.reverse.getD t 0

theorem wordAt_cons_of_lt (w : Word) {newest : List Word} {t : Nat} (ht : t < newest.length) :
    wordAt (w :: newest) t = wordAt newest t := by
  rw [wordAt, List.reverse_cons]
  exact List.getD_append _ _ _ _ (by simpa using ht)

theorem wordAt_cons_length (w : Word) (newest : List Word) : wordAt (w :: newest) newest.length = w := by
  simp [wordAt]

/-- Counted from the newest word instead: `j` words back is entry `j - 1`. -/
theorem wordAt_length_sub {newest : List Word} {j : Nat} (hj : 1 ≤ j) (hlen : j ≤ newest.length) :
    wordAt newest (newest.length - j) = newest.getD (j - 1) 0 := by
  rw [wordAt, List.getD_reverse _ (by omega)]
  congr 1
  omega

/-- Extending the schedule leaves the words already made in place. -/
theorem wordAt_extendSchedule_of_lt (k : Nat) {newest : List Word} {t : Nat} (ht : t < newest.length) :
    wordAt (extendSchedule k newest) t = wordAt newest t := by
  induction k generalizing newest with
  | zero => rfl
  | succ k ih => exact (ih (by simp; omega)).trans (wordAt_cons_of_lt _ ht)

/-- The right-hand side of R166 at `t`. -/
def scheduleRule (W : Nat → Word) (t : Nat) : Word :=
  smallSigma1 (W (t - 2)) + W (t - 7) + smallSigma0 (W (t - 15)) + W (t - 16)

/-- R166 at `t` reads earlier words only. -/
theorem scheduleRule_congr {W W' : Nat → Word} {t : Nat} (hpos : 0 < t) (h : ∀ i < t, W i = W' i) :
    scheduleRule W t = scheduleRule W' t := by
  have hback : ∀ j, 0 < j → W (t - j) = W' (t - j) := fun j hj => h _ (Nat.sub_lt hpos hj)
  simp only [scheduleRule, hback, Nat.ofNat_pos]

/-- The model's next word is R166's, for as many words as have been made. -/
theorem nextScheduleWord_eq_scheduleRule {newest : List Word} (hlen : 16 ≤ newest.length) :
    nextScheduleWord newest = scheduleRule (wordAt newest) newest.length := by
  rw [scheduleRule, wordAt_length_sub (by decide) (by omega), wordAt_length_sub (by decide) (by omega),
    wordAt_length_sub (by decide) (by omega), wordAt_length_sub (by decide) hlen, nextScheduleWord]

/-- Every word that an extension makes obeys R166. -/
theorem wordAt_extendSchedule_eq_scheduleRule (k : Nat) {newest : List Word} (hlen : 16 ≤ newest.length) {t : Nat}
    (hmade : newest.length ≤ t) (ht : t < k + newest.length) :
    wordAt (extendSchedule k newest) t = scheduleRule (wordAt (extendSchedule k newest)) t := by
  induction k generalizing newest with
  | zero => omega
  | succ k ih =>
    obtain rfl | hlater := Nat.eq_or_lt_of_le hmade
    case inl =>
      calc wordAt (extendSchedule (k + 1) newest) newest.length
        _ = wordAt (nextScheduleWord newest :: newest) newest.length :=
          wordAt_extendSchedule_of_lt k (Nat.lt_succ_self _)
        _ = scheduleRule (wordAt newest) newest.length := by
          rw [wordAt_cons_length, nextScheduleWord_eq_scheduleRule hlen]
        _ = scheduleRule (wordAt (extendSchedule (k + 1) newest)) newest.length :=
          scheduleRule_congr (by omega) fun _ hi => (wordAt_extendSchedule_of_lt (k + 1) hi).symm
    case inr => exact ih (Nat.le_succ_of_le hlen) hlater (by rw [List.length_cons]; omega)

/-- The first sixteen schedule words are the block (R166). -/
theorem getD_schedule_of_lt (m : Vector Word 16) (t : Fin 16) : (schedule m).getD t 0 = m[t] :=
  (wordAt_extendSchedule_of_lt 48 (by simp)).trans (by simp [wordAt])

/-- The other schedule words obey the recurrence (R166). -/
theorem getD_schedule_eq_scheduleRule (m : Vector Word 16) {t : Nat} (hmade : 16 ≤ t) (ht : t ≤ 63) :
    (schedule m).getD t 0 = scheduleRule (fun i => (schedule m).getD i 0) t :=
  wordAt_extendSchedule_eq_scheduleRule 48 (by simp) (by simpa using hmade) (by simp; omega)

/-! ### The rounds (R167) -/

/-- The working variables before round `t`: the rounds on the first `t` constants and schedule words. -/
def workingBefore (ks ws : List Word) (v : Working) (t : Nat) : Working := shaRounds (ks.take t) (ws.take t) v

/-- Round `t` takes the working variables before it to those before round `t + 1` (R167). -/
theorem workingBefore_succ {ks ws : List Word} (v : Working) {t : Nat} (hk : t < ks.length) (hw : t < ws.length) :
    workingBefore ks ws v (t + 1) = shaRound (workingBefore ks ws v t) (ks.getD t 0) (ws.getD t 0) := by
  have hlen : (ks.take t).length = (ws.take t).length := by simp; omega
  rw [List.getD_eq_getElem _ _ hk, List.getD_eq_getElem _ _ hw]
  simp only [workingBefore, shaRounds, ← List.take_concat_get' _ _ hk, ← List.take_concat_get' _ _ hw,
    List.zip_append hlen, List.foldl_append]
  rfl

/-- Past the last constant and schedule word all rounds are done. -/
theorem workingBefore_of_length_le {ks ws : List Word} (v : Working) {t : Nat} (hk : ks.length ≤ t)
    (hw : ws.length ≤ t) : workingBefore ks ws v t = shaRounds ks ws v := by
  rw [workingBefore, List.take_of_length_le hk, List.take_of_length_le hw]

/-! ### The commands (R169 to R176) -/

theorem exec_shainit (s : State) : exec .shainit s = .next (s.writeH initialHash).complete :=
  State.withOperands_of_wf (s := s) (i := .shainit) rfl _

theorem exec_shacomp (s : State) : exec .shacomp s = .next (s.writeH (compress s.h s.m)).complete :=
  State.withOperands_of_wf (s := s) (i := .shacomp) rfl _

/-- `compress` adds the working variables before round 64, of which there is none, to the hash state (R168). -/
theorem compress_eq_foldHash_workingBefore (h : Vector Word 8) (m : Vector Word 16) :
    compress h m = foldHash h (workingBefore roundConstants (schedule m) (Working.ofHash h) 64) := by
  rw [workingBefore_of_length_le _ (by decide) (by simp), compress]

end Sys2Proof.Machine

open Sys2Proof.Machine

/-- Settles O7: the schedule obeys its recurrence (`getD_schedule_eq_scheduleRule`), and each round takes the working
variables before it to those before the next (`workingBefore_succ`). -/
theorem shacompCompressesBlock : Obligations.ShacompCompressesBlock := by
  intro s
  refine ⟨fun t => (schedule s.m).getD t 0, workingBefore roundConstants (schedule s.m) (Working.ofHash s.h),
    getD_schedule_of_lt s.m, fun _ => getD_schedule_eq_scheduleRule s.m, rfl, fun t ht => ?round, ?exec⟩
  case round =>
    have hk : t < roundConstants.length := Nat.lt_succ_of_le ht
    exact workingBefore_succ _ hk (by rw [length_schedule]; omega)
  case exec =>
    rw [exec_shacomp, compress_eq_foldHash_workingBefore]
    rfl

/-- Settles O6: the completion's hash is the initial hash value. -/
theorem shainitLoadsInitialHash : Obligations.ShainitLoadsInitialHash := exec_shainit

end

section
/-!
PROOFS. Exceptions (spec/60_exceptions.md): what a host's write to CMD does while a command runs (R199).
-/

open Sys2Proof.Machine

/-- Settles O22: the write is taken at CMD, where a busy block drops the word, and the drop sets OVR alone. -/
theorem cmdWriteWhileBusyIsDropped : Obligations.CmdWriteWhileBusyIsDropped := by
  intro s v rest hb he
  have hbusy : (s.afterTurn rest).status.busy = true := hb
  calc
    step s = .next ((s.afterTurn rest).hostWrite .cmd v) := step_memWrite s 0x00C v rest (by decide) (by decide) he
    _ = .next (s.afterTurn rest).dropCommand := by rw [State.hostWrite_cmd_busy hbusy]
    _ = .next { s with events := rest, status := { s.status with ovr := true } } := rfl

end

section
/-!
PROOFS. Reset and hazards (spec/70_reset_and_hazards.md): what the power-on reset state of any chip holds (R42, R220).
-/

namespace Sys2Proof.Machine

@[simp] theorem Status.cleared_toWord : Status.cleared.toWord = 0 := by decide

section
variable (p : Params)

theorem State.resetFor_getElem_x (i : Fin 8) : (State.resetFor p).x[i] = 0 := by simp

theorem State.resetFor_getElem_h (i : Fin 8) : (State.resetFor p).h[i] = 0 := by simp

theorem State.resetFor_getElem_m (i : Fin 16) : (State.resetFor p).m[i] = 0 := by simp

theorem State.resetFor_toWord : (State.resetFor p).status.toWord = 0 := Status.cleared_toWord

/-- IE is clear, and the other bits of CTRL read as 0 (R34). -/
theorem State.resetFor_ctrlWord : (State.resetFor p).ctrlWord = 0 := by
  rw [State.ctrlWord, State.resetFor_ie, Bool.toNat_false]
  rfl

/-- IE is clear, so the level is low whatever DONE holds (R39). -/
theorem State.resetFor_irq : (State.resetFor p).irq = false := by
  rw [State.irq, State.resetFor_ie, Bool.false_and]

end

end Sys2Proof.Machine

open Sys2Proof.Machine in
/-- Settles O36: power-on reset is the reset of the chip whose parameters are left open, and the reset of any chip holds R42's
values; INFO reads its constant in any state. -/
theorem resetClearsEveryRegister : Obligations.ResetClearsEveryRegister :=
  ⟨State.resetFor_getElem_x _, State.resetFor_getElem_h _, State.resetFor_getElem_m _, State.resetFor_toWord _, rfl,
    State.resetFor_ctrlWord _, State.resetFor_cmdlatch _, State.resetFor_irq _, rfl⟩

end

section
/-!
PROOFS. Encoding (spec/30_encoding.md): the decoder's checks as a statement about the fields of a word, the words the decoder
accepts (`Decodes`), and that R84's masks make the same checks.
-/

namespace Sys2Proof

/-! ### Fields of a packed word (R81, R93) -/

section
variable {op : Nat} (rd ra rb rn : RegField) (hop : op < 2 ^ 8)
include hop

theorem opField_packFields : (opField (packFields op rd ra rb rn)).toNat = op := (packFields_op_rsv op rd ra rb rn hop).1

theorem rsvField_packFields : rsvField (packFields op rd ra rb rn) = 0 := (packFields_op_rsv op rd ra rb rn hop).2

/-- The register fields of a packed word are the fields that were packed. -/
theorem regFields_packFields :
    rdField (packFields op rd ra rb rn) = rd ∧ raField (packFields op rd ra rb rn) = ra ∧
      rbField (packFields op rd ra rb rn) = rb ∧ rnField (packFields op rd ra rb rn) = rn := by
  have hw := packFields_toNat op rd ra rb rn hop
  have := rd.isLt
  have := ra.isLt
  have := rb.isLt
  have := rn.isLt
  refine ⟨BitVec.eq_of_toNat_eq ?_, BitVec.eq_of_toNat_eq ?_, BitVec.eq_of_toNat_eq ?_, BitVec.eq_of_toNat_eq ?_⟩
  · rw [rdField_toNat]; omega
  · rw [raField_toNat]; omega
  · rw [rbField_toNat]; omega
  · rw [rnField_toNat]; omega

end

section
variable {w w' : Word}

/-- A word is the sum of its fields in their places (R81). -/
theorem toNat_eq_sum_fields (w : Word) :
    w.toNat = (opField w).toNat + (rdField w).toNat * 2 ^ 8 + (raField w).toNat * 2 ^ 12 + (rbField w).toNat * 2 ^ 16
      + (rnField w).toNat * 2 ^ 20 + (rsvField w).toNat * 2 ^ 24 := by
  have := w.isLt
  rw [opField_toNat, rdField_toNat, raField_toNat, rbField_toNat, rnField_toNat, rsvField_toNat]
  omega

/-- A word whose RSV is 0 is packed from its fields (R93). -/
theorem packFields_fields (hrsv : rsvField w = 0) :
    packFields (opField w).toNat (rdField w) (raField w) (rbField w) (rnField w) = w := by
  have hsum := toNat_eq_sum_fields w
  have hzero : (rsvField w).toNat = 0 := by rw [hrsv]; rfl
  apply BitVec.eq_of_toNat_eq
  rw [packFields_toNat _ _ _ _ _ (opField w).isLt]
  omega

theorem opField_and : opField (w &&& w') = opField w &&& opField w' := BitVec.extractLsb'_and
theorem rsvField_and : rsvField (w &&& w') = rsvField w &&& rsvField w' := BitVec.extractLsb'_and
theorem rdField_and : rdField (w &&& w') = rdField w &&& rdField w' := BitVec.extractLsb'_and
theorem raField_and : raField (w &&& w') = raField w &&& raField w' := BitVec.extractLsb'_and
theorem rbField_and : rbField (w &&& w') = rbField w &&& rbField w' := BitVec.extractLsb'_and
theorem rnField_and : rnField (w &&& w') = rnField w &&& rnField w' := BitVec.extractLsb'_and

/-- Words with the same fields are the same word. -/
theorem word_eq_iff_fields : w = w' ↔ opField w = opField w' ∧ rsvField w = rsvField w' ∧ rdField w = rdField w' ∧
    raField w = raField w' ∧ rbField w = rbField w' ∧ rnField w = rnField w' := by
  constructor
  · rintro rfl
    exact ⟨rfl, rfl, rfl, rfl, rfl, rfl⟩
  · rintro ⟨hop, hrsv, hrd, hra, hrb, hrn⟩
    apply BitVec.eq_of_toNat_eq
    rw [toNat_eq_sum_fields w, toNat_eq_sum_fields w', hop, hrsv, hrd, hra, hrb, hrn]

end

/-! ### The decoder's checks (R92) -/

/-- The checks that follow the opcode's hold of the word: RSV is 0, the used fields select registers, the others are 0. -/
structure FieldsOk (w : Word) (useD useA useB useN : Bool) : Prop where
  rsv : rsvField w = 0
  rd : fieldOk useD (rdField w) = true
  ra : fieldOk useA (raField w) = true
  rb : fieldOk useB (rbField w) = true
  rn : fieldOk useN (rnField w) = true

/-- A field of four bits selects a register exactly when it is below 8 (R82). -/
theorem RegField.selects_iff (f : RegField) : f.selects = true ↔ f < 8 := by
  simp [RegField.selects, NXREG, BitVec.lt_def]

theorem fieldOk_used_iff (f : RegField) : fieldOk true f = true ↔ f < 8 := f.selects_iff

theorem fieldOk_unused_iff (f : RegField) : fieldOk false f = true ↔ f = 0 := beq_iff_eq

section
variable {w : Word} {useD useA useB useN : Bool} {i j : Instr}

theorem fieldsOk_iff : FieldsOk w useD useA useB useN ↔ rsvField w = 0 ∧ fieldOk useD (rdField w) = true ∧
    fieldOk useA (raField w) = true ∧ fieldOk useB (rbField w) = true ∧ fieldOk useN (rnField w) = true :=
  ⟨fun ⟨hrsv, hrd, hra, hrb, hrn⟩ => ⟨hrsv, hrd, hra, hrb, hrn⟩,
    fun ⟨hrsv, hrd, hra, hrb, hrn⟩ => ⟨hrsv, hrd, hra, hrb, hrn⟩⟩

theorem acceptFields_of_fieldsOk (h : FieldsOk w useD useA useB useN) :
    acceptFields w useD useA useB useN i = .ok i := by
  obtain ⟨hrsv, hrd, hra, hrb, hrn⟩ := h
  simp [acceptFields, hrsv, hrd, hra, hrb, hrn]

theorem acceptFields_of_not_fieldsOk (h : ¬ FieldsOk w useD useA useB useN) :
    acceptFields w useD useA useB useN i = .error .illField := by
  refine if_neg fun hall => h ?_
  simp only [Bool.and_eq_true, beq_iff_eq] at hall
  obtain ⟨⟨⟨⟨hrsv, hrd⟩, hra⟩, hrb⟩, hrn⟩ := hall
  exact ⟨hrsv, hrd, hra, hrb, hrn⟩

theorem acceptFields_eq_ok_iff : acceptFields w useD useA useB useN i = .ok j ↔ FieldsOk w useD useA useB useN ∧ i = j := by
  by_cases h : FieldsOk w useD useA useB useN
  · simp [acceptFields_of_fieldsOk h, h]
  · simp [acceptFields_of_not_fieldsOk h, h]

theorem acceptFields_ne_illOp : acceptFields w useD useA useB useN i ≠ .error .illOp := by
  by_cases h : FieldsOk w useD useA useB useN
  · simp [acceptFields_of_fieldsOk h]
  · simp [acceptFields_of_not_fieldsOk h]

end

/-- The word is accepted as the instruction: its opcode is the row's, its fields pass the row's checks (R83, R84). -/
inductive Decodes (w : Word) : Instr → Prop where
  | montmul (hop : opField w = 1) (hf : FieldsOk w true true true true) :
      Decodes w (.montmul (rdField w) (raField w) (rbField w) (rnField w))
  | modexp (hop : opField w = 2) (hf : FieldsOk w true true true true) :
      Decodes w (.modexp (rdField w) (raField w) (rbField w) (rnField w))
  | gcd (hop : opField w = 3) (hf : FieldsOk w true true true false) :
      Decodes w (.gcd (rdField w) (raField w) (rbField w))
  | modinv (hop : opField w = 4) (hf : FieldsOk w true true false true) :
      Decodes w (.modinv (rdField w) (raField w) (rnField w))
  | mrwit (hop : opField w = 5) (hf : FieldsOk w true true false true) :
      Decodes w (.mrwit (rdField w) (raField w) (rnField w))
  | shainit (hop : opField w = 6) (hf : FieldsOk w false false false false) : Decodes w .shainit
  | shacomp (hop : opField w = 7) (hf : FieldsOk w false false false false) : Decodes w .shacomp

section
variable {w : Word} {i : Instr}

/-- `decode` accepts what `Decodes` says. -/
theorem decode_eq_ok_iff : decode w = .ok i ↔ Decodes w i := by
  constructor
  · intro h
    unfold decode at h
    split at h
    · next hop => obtain ⟨hf, rfl⟩ := acceptFields_eq_ok_iff.mp h; exact .montmul (BitVec.eq_of_toNat_eq hop) hf
    · next hop => obtain ⟨hf, rfl⟩ := acceptFields_eq_ok_iff.mp h; exact .modexp (BitVec.eq_of_toNat_eq hop) hf
    · next hop => obtain ⟨hf, rfl⟩ := acceptFields_eq_ok_iff.mp h; exact .gcd (BitVec.eq_of_toNat_eq hop) hf
    · next hop => obtain ⟨hf, rfl⟩ := acceptFields_eq_ok_iff.mp h; exact .modinv (BitVec.eq_of_toNat_eq hop) hf
    · next hop => obtain ⟨hf, rfl⟩ := acceptFields_eq_ok_iff.mp h; exact .mrwit (BitVec.eq_of_toNat_eq hop) hf
    · next hop => obtain ⟨hf, rfl⟩ := acceptFields_eq_ok_iff.mp h; exact .shainit (BitVec.eq_of_toNat_eq hop) hf
    · next hop => obtain ⟨hf, rfl⟩ := acceptFields_eq_ok_iff.mp h; exact .shacomp (BitVec.eq_of_toNat_eq hop) hf
    · cases h
  · intro h
    cases h with
    | _ hop hf => rw [decode, hop]; exact acceptFields_of_fieldsOk hf

/-- An accepted word is the word of its instruction: RSV is 0 and the unused fields are 0, as `encode` makes them (R82, R93). -/
theorem Decodes.encode_eq (h : Decodes w i) : encode i = w := by
  cases h with
  | _ hop hf =>
    obtain ⟨hrsv, hrd, hra, hrb, hrn⟩ := hf
    have hpack := packFields_fields hrsv
    rw [hop] at hpack
    simp_all [encode, fieldOk_unused_iff]

theorem Decodes.wf (h : Decodes w i) : i.wf = true := by
  cases h with
  | _ hop hf =>
    obtain ⟨-, hrd, hra, hrb, hrn⟩ := hf
    simp_all [Instr.wf, Instr.fields, fieldOk]

theorem Decodes.rsvField_toNat (h : Decodes w i) : (rsvField w).toNat = 0 := by
  cases h with
  | _ hop hf => rw [hf.rsv]; rfl

theorem Decodes.opField_eq (h : Decodes w i) : (opField w).toNat = i.opcode := by
  cases h with
  | _ hop hf => rw [hop]; rfl

end

/-! ### The encoder's words are accepted (R93) -/

/-- Every well-formed instruction decodes from its word: the fields `decode` reads are the fields `packFields` put in. -/
theorem decode_encode (i : Instr) (hwf : i.wf = true) : decode (encode i) = .ok i := by
  cases i with
  | _ =>
    simp only [Instr.wf, Instr.fields, List.all_cons, List.all_nil, Bool.and_eq_true] at hwf
    simp [encode, decode, acceptFields, fieldOk, opField_packFields, rsvField_packFields, regFields_packFields, hwf]

/-! ### Reserved opcodes and illegal fields (R85, R86) -/

section
open Machine
variable {w : Word}

/-- R84's conditions on the fields are the decoder's checks, row by row. -/
theorem legalFields_iff : LegalFields w ↔
    ((opField w = 1 ∨ opField w = 2) ∧ FieldsOk w true true true true) ∨
    (opField w = 3 ∧ FieldsOk w true true true false) ∨
    ((opField w = 4 ∨ opField w = 5) ∧ FieldsOk w true true false true) ∨
    ((opField w = 6 ∨ opField w = 7) ∧ FieldsOk w false false false false) := by
  simp only [LegalFields, fieldsOk_iff, fieldOk_used_iff, fieldOk_unused_iff, and_or_left,
    and_left_comm (a := rsvField w = 0)]

/-- The decoder accepts the words of R84: opcode in use, fields legal. -/
theorem exists_decodes_iff_legalFields : (∃ i, Decodes w i) ↔ LegalFields w := by
  rw [legalFields_iff]
  constructor
  · rintro ⟨i, h⟩
    cases h with
    | _ hop hf => simp [hop, hf]
  · rintro (⟨hop | hop, hf⟩ | ⟨hop, hf⟩ | ⟨hop | hop, hf⟩ | ⟨hop | hop, hf⟩)
    · exact ⟨_, .montmul hop hf⟩
    · exact ⟨_, .modexp hop hf⟩
    · exact ⟨_, .gcd hop hf⟩
    · exact ⟨_, .modinv hop hf⟩
    · exact ⟨_, .mrwit hop hf⟩
    · exact ⟨_, .shainit hop hf⟩
    · exact ⟨_, .shacomp hop hf⟩

/-- Legal fields are those of an opcode in use. -/
theorem opField_bounds_of_legalFields (h : LegalFields w) : 1 ≤ opField w ∧ opField w ≤ 7 := by
  obtain ⟨i, hi⟩ := exists_decodes_iff_legalFields.mpr h
  cases hi with
  | _ hop hf => rw [hop]; decide

/-- The decoder answers ILL_OP exactly for the reserved opcodes, whatever the other fields hold (R85, R192). -/
theorem decode_eq_illOp_iff : decode w = .error .illOp ↔ ReservedOp w := by
  have hreserved : ReservedOp w ↔ ¬ (1 ≤ (opField w).toNat ∧ (opField w).toNat ≤ 7) := by
    unfold ReservedOp
    bv_omega
  rw [hreserved, decode]
  split
  case h_8 =>
    simp only [imp_false] at *
    simp only [true_iff]
    omega
  all_goals
    next hop => simp [hop, acceptFields_ne_illOp]

/-- A word whose opcode is in use and whose fields are not legal is ILL_FIELD (R86). -/
theorem decode_eq_illField (hop : ¬ ReservedOp w) (hf : ¬ LegalFields w) : decode w = .error .illField := by
  cases hd : decode w with
  | ok i => exact absurd (exists_decodes_iff_legalFields.mp ⟨i, decode_eq_ok_iff.mp hd⟩) hf
  | error c =>
    obtain rfl | rfl := decode_error w c hd
    · exact absurd (decode_eq_illOp_iff.mp hd) hop
    · rfl

end

/-! ### The opcode table (R84) -/

section
variable {w : Word}

/-- A row's mask on a register field: bit 3 where the opcode uses it, every bit where it does not. -/
def fieldMask (used : Bool) : RegField := if used then 0x8 else 0xF

theorem and_fieldMask_eq_zero_iff (used : Bool) (f : RegField) : f &&& fieldMask used = 0 ↔ fieldOk used f = true := by
  cases used with
  | _ => revert f; decide

/-- R84's mask of an opcode that uses the given fields: OP and RSV whole, each register field as its use asks. -/
def rowMask (useD useA useB useN : Bool) : Word :=
  BitVec.allOnes 8 ++ fieldMask useN ++ fieldMask useB ++ fieldMask useA ++ fieldMask useD ++ BitVec.allOnes 8

theorem rowMask_fields : ∀ useD useA useB useN : Bool,
    opField (rowMask useD useA useB useN) = BitVec.allOnes 8 ∧ rsvField (rowMask useD useA useB useN) = BitVec.allOnes 8 ∧
    rdField (rowMask useD useA useB useN) = fieldMask useD ∧ raField (rowMask useD useA useB useN) = fieldMask useA ∧
    rbField (rowMask useD useA useB useN) = fieldMask useB ∧ rnField (rowMask useD useA useB useN) = fieldMask useN := by
  decide

/-- R84's row of an opcode that uses the given fields: its pattern is the opcode alone. -/
def tableRow (mnemonic : String) (op : Nat) (useD useA useB useN : Bool) : OpcodeRow :=
  ⟨mnemonic, op, rowMask useD useA useB useN, packFields op 0 0 0 0⟩

theorem tableRow_op (mnemonic : String) (op : Nat) (useD useA useB useN : Bool) :
    (tableRow mnemonic op useD useA useB useN).op = op := rfl

theorem opcodeTable_eq : opcodeTable =
    [tableRow "MONTMUL" 1 true true true true, tableRow "MODEXP" 2 true true true true,
      tableRow "GCD" 3 true true true false, tableRow "MODINV" 4 true true false true,
      tableRow "MRWIT" 5 true true false true, tableRow "SHAINIT" 6 false false false false,
      tableRow "SHACOMP" 7 false false false false] := by decide

/-- A word matches the row exactly when its opcode is the row's and its fields pass the row's checks. -/
theorem tableRow_matches_iff {mnemonic : String} {op : Nat} {useD useA useB useN : Bool} (hlt : op < 2 ^ 8) :
    (tableRow mnemonic op useD useA useB useN).matches w = true ↔
      (opField w).toNat = op ∧ FieldsOk w useD useA useB useN := by
  obtain ⟨hd, ha, hb, hn⟩ := regFields_packFields 0 0 0 0 hlt
  have hpatop := opField_packFields 0 0 0 0 hlt
  have hpatrsv := rsvField_packFields 0 0 0 0 hlt
  obtain ⟨hop, hrsv, hrd, hra, hrb, hrn⟩ := rowMask_fields useD useA useB useN
  rw [OpcodeRow.matches, beq_iff_eq, word_eq_iff_fields, tableRow, opField_and, rsvField_and, rdField_and, raField_and,
    rbField_and, rnField_and, hop, hrsv, hrd, hra, hrb, hrn, hd, ha, hb, hn, hpatrsv, BitVec.and_allOnes,
    BitVec.and_allOnes, and_fieldMask_eq_zero_iff, and_fieldMask_eq_zero_iff, and_fieldMask_eq_zero_iff,
    and_fieldMask_eq_zero_iff, BitVec.toNat_eq, hpatop, fieldsOk_iff]

/-- A word that matches a row decodes to an instruction of the row's opcode. -/
theorem exists_decodes_of_matches {row : OpcodeRow} (hrow : row ∈ opcodeTable) (hm : row.matches w = true) :
    ∃ i, Decodes w i ∧ i.opcode = row.op := by
  simp only [opcodeTable_eq, List.mem_cons, List.not_mem_nil, or_false] at hrow
  obtain rfl | rfl | rfl | rfl | rfl | rfl | rfl := hrow
  all_goals obtain ⟨hop, hf⟩ := (tableRow_matches_iff (by decide)).mp hm
  · exact ⟨_, .montmul (BitVec.eq_of_toNat_eq hop) hf, rfl⟩
  · exact ⟨_, .modexp (BitVec.eq_of_toNat_eq hop) hf, rfl⟩
  · exact ⟨_, .gcd (BitVec.eq_of_toNat_eq hop) hf, rfl⟩
  · exact ⟨_, .modinv (BitVec.eq_of_toNat_eq hop) hf, rfl⟩
  · exact ⟨_, .mrwit (BitVec.eq_of_toNat_eq hop) hf, rfl⟩
  · exact ⟨_, .shainit (BitVec.eq_of_toNat_eq hop) hf, rfl⟩
  · exact ⟨_, .shacomp (BitVec.eq_of_toNat_eq hop) hf, rfl⟩

/-- An accepted word matches the row of its instruction. -/
theorem Decodes.exists_matches {i : Instr} (h : Decodes w i) :
    ∃ row ∈ opcodeTable, row.op = i.opcode ∧ row.matches w = true := by
  rw [opcodeTable_eq]
  cases h with
  | _ hop hf => simp [tableRow_matches_iff, hop, hf, tableRow_op, Instr.opcode]

/-- The opcode tells the rows apart. -/
theorem opcodeTable_op_injective : ∀ row ∈ opcodeTable, ∀ row' ∈ opcodeTable, row.op = row'.op → row = row' := by
  decide

/-- A row's words are those that decode to an instruction of its opcode (R84). -/
theorem matches_iff {row : OpcodeRow} (hrow : row ∈ opcodeTable) :
    row.matches w = true ↔ ∃ i, Decodes w i ∧ i.opcode = row.op := by
  refine ⟨exists_decodes_of_matches hrow, ?_⟩
  rintro ⟨i, hi, hop⟩
  obtain ⟨row', hrow', hop', hm⟩ := hi.exists_matches
  rwa [opcodeTable_op_injective row hrow row' hrow' (hop.symm.trans hop'.symm)]

end

end Sys2Proof

open Sys2Proof Sys2Proof.Machine

/-- Settles O14: `decode` reads back the fields that `encode` packs. -/
theorem decodeOfEncode : Obligations.DecodeOfEncode := decode_encode

/-- Settles O15: an accepted word has RSV 0 and 0 in its unused fields, so it is the sum of the fields its instruction keeps. -/
theorem encodeOfDecode : Obligations.EncodeOfDecode := by
  intro w i h
  have hd := decode_eq_ok_iff.mp h
  have hsum := toNat_eq_sum_fields w
  rw [hd.opField_eq, hd.rsvField_toNat, Nat.zero_mul, Nat.add_zero] at hsum
  exact ⟨hd.encode_eq, hd.wf, hsum⟩

/-- Settles O16: masks and decoder make the same checks of a word (`matches_iff`), and the opcode, which every mask takes whole,
tells the rows apart. -/
theorem acceptedWordsAreTableRows : Obligations.AcceptedWordsAreTableRows := by
  intro w
  simp only [decode_eq_ok_iff, exists_decodes_iff_legalFields]
  refine ⟨?accepted, fun row hrow => matches_iff hrow, ?unique⟩
  case accepted =>
    exact ⟨fun h => ⟨(opField_bounds_of_legalFields h).1, (opField_bounds_of_legalFields h).2, h⟩, fun ⟨_, _, h⟩ => h⟩
  case unique =>
    intro row hrow row' hrow' hm hm'
    obtain ⟨i, hi, hop⟩ := (matches_iff hrow).mp hm
    obtain ⟨i', hi', hop'⟩ := (matches_iff hrow').mp hm'
    have : i.opcode = i'.opcode := hi.opField_eq.symm.trans hi'.opField_eq
    exact opcodeTable_op_injective row hrow row' hrow' (by omega)

/-- Settles O18: the decoder runs on each word. -/
theorem writtenOutWordsDecode : Obligations.WrittenOutWordsDecode := by
  unfold Obligations.WrittenOutWordsDecode
  decide

end

section
/-!
PROOFS. Completions and turns (spec/30_encoding.md section 7): what a completion changes and leaves, field by field, and one
equation for each kind of turn.
-/

namespace Sys2Proof.Machine

/-! ### What a command completes with -/

section
variable {s t : State} {i : Instr}

/-- A command one of whose fields selects nothing runs no rule (R82). -/
theorem exec_of_not_wf (hwf : i.wf = false) : exec i s = .next (s.raiseCmdError .illField) := by
  cases i with
  | _ => exact (State.withOperands_eq _ _ _).trans (congrArg _ (if_neg (ne_true_of_eq_false hwf)))

/-- A well-formed instruction writes a register that there is (R82). -/
theorem destX_lt {rd : RegField} (hwf : i.wf = true) (hd : destX i = some rd) : rd.toNat < NXREG := by
  cases i with
  | shainit => cases hd
  | shacomp => cases hd
  | _ =>
    cases hd
    simp only [Instr.wf, Instr.fields, List.all_cons, Bool.and_eq_true, RegField.selects, decide_eq_true_eq] at hwf
    exact hwf.1

namespace Completion

variable (hc : Completion i s t)
include hc

/-- A completion clears BUSY and sets DONE (R95). -/
theorem busy_done : t.status.busy = false ∧ t.status.done = true := by
  cases hc with
  | _ => exact ⟨rfl, rfl⟩

/-- What no command writes (R22 to R24, R34, R40). -/
theorem frame : t = { s with
    x := t.x
    h := t.h
    status := { s.status with
      busy := t.status.busy, done := t.status.done, err := t.status.err, errcode := t.status.errcode
      flag := t.status.flag } } := by
  cases hc with
  | _ => rfl

/-- A command writes no big-number register but its RD (R22). -/
theorem x_eq {k : Fin 8} (hk : ∀ rd, destX i = some rd → k.val ≠ rd.toNat) : t.x[k] = s.x[k] := by
  have write : ∀ rd v, destX i = some rd → (s.writeX rd v).x[k] = s.x[k] := fun rd v hd =>
    Vector.getElem_setIfInBounds_ne _ (hk rd hd).symm
  cases hc with
  | error c => rfl
  | result rd v _ hd => exact write rd v hd
  | witness rd ra rn w _ hi => exact write rd w.toNat (by rw [hi, destX])
  | digest h => rfl

/-- Only SHAINIT and SHACOMP write H (R23). -/
theorem h_eq (hd : destH i = false) : t.h = s.h := by
  cases hc with
  | digest h hd' => exact absurd (hd.symm.trans hd') nofun
  | _ => rfl

/-- Only MRWIT writes FLAG (R32). -/
theorem flag_eq (hne : ∀ rd ra rn, i ≠ .mrwit rd ra rn) : t.status.flag = s.status.flag := by
  cases hc with
  | witness rd ra rn w _ hi => exact absurd hi (hne rd ra rn)
  | _ => rfl

/-- A completion that sets ERR is an error completion (R97). -/
theorem error_of_err (herr : s.status.err = false) (ht : t.status.err = true) :
    ∃ c, c ≠ .none ∧ t = s.raiseCmdError c := by
  cases hc with
  | error c hne => exact ⟨c, hne, rfl⟩
  | _ => exact absurd (herr.symm.trans ht) nofun

end Completion

end

/-! ### Turns -/

section
variable {s : State} {rest : List Event}

@[simp] theorem State.afterTurn_params : (s.afterTurn rest).params = s.params := rfl
@[simp] theorem State.afterTurn_x : (s.afterTurn rest).x = s.x := rfl
@[simp] theorem State.afterTurn_h : (s.afterTurn rest).h = s.h := rfl
@[simp] theorem State.afterTurn_m : (s.afterTurn rest).m = s.m := rfl
@[simp] theorem State.afterTurn_status : (s.afterTurn rest).status = s.status := rfl
@[simp] theorem State.afterTurn_ie : (s.afterTurn rest).ie = s.ie := rfl
@[simp] theorem State.afterTurn_cmdlatch : (s.afterTurn rest).cmdlatch = s.cmdlatch := rfl
@[simp] theorem State.afterTurn_events : (s.afterTurn rest).events = rest := rfl
@[simp] theorem State.afterTurn_reads : (s.afterTurn rest).reads = s.reads := rfl
@[simp] theorem State.afterTurn_draws : (s.afterTurn rest).draws = s.draws := rfl

theorem State.afterTurn_self (he : s.events = rest) : s.afterTurn rest = s := by
  rw [← he]
  rfl

/-- The engine has the turn, by the schedule or because the schedule is empty. -/
theorem step_engine (he : s.events = .engine :: rest ∨ s.events = [] ∧ rest = []) :
    step s = engineTurn (s.afterTurn rest) := by
  obtain he | ⟨he, rfl⟩ := he
  · rw [step, he]
    rfl
  · rw [State.afterTurn_self he, step, he]

theorem step_access {a : Access} (he : s.events = .access a :: rest) : step s = hostAccess a (s.afterTurn rest) := by
  rw [step, he]
  rfl

theorem engineTurn_idle (hb : s.status.busy = false) : engineTurn s = .next s :=
  if_neg (ne_true_of_eq_false hb)

theorem engineTurn_command {i : Instr} (hb : s.status.busy = true) (hd : decode s.cmdlatch = .ok i) :
    engineTurn s = exec i s := by
  rw [engineTurn, if_pos hb, hd]

theorem engineTurn_illegal {c : ErrCode} (hb : s.status.busy = true) (hd : decode s.cmdlatch = .error c) :
    engineTurn s = .next (s.raiseCmdError c) := by
  rw [engineTurn, if_pos hb, hd]

theorem State.observe_afterTurn : (s.afterTurn rest).observe = s.observe := rfl

end

end Sys2Proof.Machine

open Sys2Proof Sys2Proof.Machine

/-- Settles O8: the frame of a meaning answers ILL_FIELD in place of the rule. -/
theorem unselectedFieldCompletesIllField : Obligations.UnselectedFieldCompletesIllField :=
  fun _ _ hwf => exec_of_not_wf hwf

/-- Settles O9: every command answers a completion. -/
theorem everyCommandCompletes : Obligations.EveryCommandCompletes := by
  intro i s
  obtain ⟨t, he, hc⟩ := exec_completion i s
  exact ⟨t, he, hc.busy_done⟩

/-- Settles O10: of the frame of every completion, these four write neither H nor FLAG, and of X only RD. -/
theorem modularCommandsFrame : Obligations.ModularCommandsFrame := by
  intro s t i rd hi he
  have hc := Completion.of_exec he
  obtain ⟨hdX, hdH, hne⟩ : destX i = some rd ∧ destH i = false ∧ ∀ d a n, i ≠ .mrwit d a n := by
    obtain ⟨ra, rb, rn, rfl⟩ | ⟨ra, rb, rn, rfl⟩ | ⟨ra, rb, rfl⟩ | ⟨ra, rn, rfl⟩ := hi
    all_goals exact ⟨rfl, rfl, nofun⟩
  refine ⟨?_, fun j hj => hc.x_eq fun d hd => by rwa [Option.some.inj (hd.symm.trans hdX)]⟩
  have hframe := hc.frame
  rwa [hc.h_eq hdH, hc.flag_eq hne] at hframe

/-- Settles O11: the frame of every completion, and the two error completions leave X and FLAG. -/
theorem mrwitFrame : Obligations.MrwitFrame := by
  intro s t rd ra rn he
  have hc := Completion.of_exec he
  refine ⟨?frame, fun j hj => hc.x_eq fun d hd => by rwa [← Option.some.inj hd], fun herr => ?error⟩
  case frame =>
    have hframe := hc.frame
    rwa [hc.h_eq rfl] at hframe
  case error =>
    have hfail : ∃ c, exec (.mrwit rd ra rn) s = .next (s.raiseCmdError c) := by
      cases hwf : (Instr.mrwit rd ra rn).wf with
      | false => exact ⟨_, exec_of_not_wf hwf⟩
      | true => exact ⟨_, exec_mrwit_nSmall hwf (herr.resolve_right (by simp [hwf]))⟩
    obtain ⟨c, hfail⟩ := hfail
    cases he.symm.trans hfail
    exact ⟨rfl, rfl⟩

/-- Settles O12: each answers one completion, that writes H. -/
theorem shaCommandsFrame : Obligations.ShaCommandsFrame := by
  rintro s t i (rfl | rfl) he
  · cases he.symm.trans (exec_shainit s)
    rfl
  · cases he.symm.trans (exec_shacomp s)
    rfl

/-- Settles O13: a completion that sets ERR is the error completion, which writes only STATUS. -/
theorem errorCompletionChangesOnlyStatus : Obligations.ErrorCompletionChangesOnlyStatus := by
  intro i s t herr he ht
  obtain ⟨c, hc, rfl⟩ := (Completion.of_exec he).error_of_err herr ht
  exact ⟨hc, rfl⟩

/-- Settles O17: the decoder's error of a word (`decode_eq_illOp_iff`, `decode_eq_illField`) is what the engine's turn completes
with. -/
theorem illegalWordCompletesWithItsError : Obligations.IllegalWordCompletesWithItsError := by
  intro s rest hb he
  have hstep : ∀ c, decode s.cmdlatch = .error c → step s = .next ((s.afterTurn rest).raiseCmdError c) := fun c hd =>
    (step_engine he).trans (engineTurn_illegal (s := s.afterTurn rest) hb hd)
  exact ⟨fun hop => hstep _ (decode_eq_illOp_iff.mpr hop), fun hop hf => hstep _ (decode_eq_illField hop hf)⟩

/-- Settles O19: the turn of a busy engine runs the decoded instruction, and the state of `withFetchWord` has such a turn next. -/
theorem stepRunsTheDecodedCommand : Obligations.StepRunsTheDecodedCommand := by
  refine ⟨fun s i hb hd => ⟨fun he => ?empty, fun rest he => ?scheduled⟩, fun s nbits w i hd => ?fetched⟩
  case empty => rw [step_engine (.inr ⟨he, rfl⟩), State.afterTurn_self he, engineTurn_command hb hd]
  case scheduled => exact (step_engine (.inl he)).trans (engineTurn_command (s := s.afterTurn rest) hb hd)
  case fetched =>
    have hlatch : decode (tableWord nbits w) = .ok i := by
      unfold decodeTableWord at hd
      split at hd
      · next j hj => rw [hj, Option.some.inj hd]
      · cases hd
    exact (step_engine (.inl rfl)).trans
      (engineTurn_command (s := (s.withFetchWord nbits w).afterTurn s.events) rfl hlatch)

/-- Settles O20: a turn of an idle engine only takes itself off the schedule. -/
theorem idleEngineHoldsTheState : Obligations.IdleEngineHoldsTheState := by
  intro s hb
  have hturn : ∀ rest, engineTurn (s.afterTurn rest) = .next (s.afterTurn rest) := fun rest => engineTurn_idle hb
  have hempty : s.events = [] → step s = .next s := fun he => by
    rw [step_engine (.inr ⟨he, rfl⟩), hturn, State.afterTurn_self he]
  have hscheduled : ∀ rest, s.events = .engine :: rest → step s = .next (s.afterTurn rest) := fun rest he =>
    (step_engine (.inl he)).trans (hturn rest)
  refine ⟨hempty, hscheduled, fun ⟨hall, _⟩ => ?_⟩
  cases he : s.events with
  | nil => exact ⟨s, hempty he, ⟨hall, hb⟩, rfl⟩
  | cons e rest =>
    rw [he, List.forall_mem_cons] at hall
    obtain ⟨rfl, hrest⟩ := hall
    exact ⟨_, hscheduled rest he, ⟨hrest, hb⟩, State.observe_afterTurn⟩

end

section
/-!
PROOFS. Steps: what a step that answers a next state has done to the block (`StepEffect`), in the terms of Safety.lean, and the
invariant that every step keeps (10_state.md, R21, R29, R30; R100).
-/

namespace Sys2Proof.Machine

/-! ### Host accesses (R50, R52, R205) -/

section
variable {s t : State} {a : Access}

theorem Access.legal_iff (p : Params) (a : Access) :
    a.legal p = true ↔ a.host = 0 ∧ a.width = 32 ∧ inWindow p a.addr = true ∧ (a.addr - p.base) % 4 = 0 := by
  simp only [Access.legal, Bool.and_eq_true, beq_iff_eq, and_assoc]

theorem hostAccess_of_legal (hl : a.legal s.params = true) :
    (a.op = .read → hostAccess a s = .next (s.hostRead (s.regAt a.addr))) ∧
      ∀ v, a.op = .write v → hostAccess a s = .next (s.hostWrite (s.regAt a.addr) v) := by
  obtain ⟨hhost, hwidth, hwin, halign⟩ := (Access.legal_iff _ _).mp hl
  constructor
  · intro hop
    simp [hostAccess, hhost, hwidth, hwin, halign, hop]
  · intro v hop
    simp [hostAccess, hhost, hwidth, hwin, halign, hop]

/-- A legal access is performed: it answers a next state. -/
theorem exists_hostAccess_of_legal (hl : a.legal s.params = true) : ∃ t, hostAccess a s = .next t := by
  obtain ⟨hread, hwrite⟩ := hostAccess_of_legal hl
  cases hop : a.op with
  | read => exact ⟨_, hread hop⟩
  | write v => exact ⟨_, hwrite v hop⟩

/-- A read changes nothing of the block (R58). -/
theorem State.hostRead_sameBlock (s : State) (r : WindowReg) : s.SameBlock (s.hostRead r) := by
  obtain ⟨_, h⟩ | ⟨_, h⟩ := s.hostRead_cases r
  · rw [h]
    exact ⟨rfl, rfl, rfl, rfl, rfl, rfl, rfl⟩
  · rw [h]
    exact ⟨rfl, rfl, rfl, rfl, rfl, rfl, rfl⟩

theorem State.hostRead_events (s : State) (r : WindowReg) : (s.hostRead r).events = s.events := by
  obtain ⟨_, h⟩ | ⟨_, h⟩ := s.hostRead_cases r
  · rw [h, State.answerFree_events]
  · rw [h, State.answer_events]

/-- No write changes the chip's parameters or the turns to come. -/
theorem WriteEffect.params_events {v : Word} {r : WindowReg} (h : WriteEffect s v r t) :
    t.params = s.params ∧ t.events = s.events := by
  cases h with
  | _ => exact ⟨rfl, rfl⟩

/-- The map names a word of a register only below NW (R51, R53). -/
theorem lt_nw_of_windowReg_eq_x {nw off : Nat} {i : Fin 8} {j : Nat} (h : windowReg nw off = .x i j) : j < nw := by
  simp only [windowReg] at h
  split_ifs at h with _ _ _ _ _ _ _ hj
  cases h
  exact hj

end

/-! ### What a step does -/

section
variable {s t : State}

theorem Completion.params_events {i : Instr} (hc : Completion i s t) : t.params = s.params ∧ t.events = s.events := by
  cases hc with
  | _ => exact ⟨rfl, rfl⟩

theorem EngineTurn.params_events (h : EngineTurn s t) : t.params = s.params ∧ t.events = s.events := by
  cases h with
  | idle => exact ⟨rfl, rfl⟩
  | command i t hb hd he hc => exact hc.params_events
  | illegal c => exact ⟨rfl, rfl⟩

theorem hostAccess_params_events {a : Access} (h : hostAccess a s = .next t) :
    t.params = s.params ∧ t.events = s.events := by
  obtain ⟨-, ⟨-, rfl⟩ | ⟨v, -, rfl⟩⟩ := hostAccess_next_cases a s t h
  · exact ⟨(s.hostRead_sameBlock _).1, s.hostRead_events _⟩
  · exact (s.hostWrite_effect _ v).params_events

/-- A step keeps the parameters and takes its turn off the schedule. -/
theorem step_params_events (h : step s = .next t) : t.params = s.params ∧ t.events = s.events.tail := by
  obtain ⟨he, ht⟩ | ⟨rest, he, ht⟩ | ⟨a, rest, he, ht⟩ := step_next_cases s t h
  · rw [he]
    exact ⟨ht.params_events.1, ht.params_events.2.trans he⟩
  · rw [he]
    exact ht.params_events
  · rw [he]
    exact hostAccess_params_events ht

/-- What a step has done to the block: nothing; completed a command, or a word that is none; or written a window register. -/
inductive StepEffect (s t : State) : Prop where
  | quiet (h : s.SameBlock t)
  | command (rest : List Event) (i : Instr) (hc : s.EngineCompletes) (hd : decode s.cmdlatch = .ok i)
      (he : exec i (s.afterTurn rest) = .next t)
  | illegal (rest : List Event) (c : ErrCode) (hc : s.EngineCompletes) (hne : c ≠ .none)
      (ht : t = (s.afterTurn rest).raiseCmdError c)
  | write (rest : List Event) (r : WindowReg) (v : Word) (hw : s.HostWrites r v)
      (he : WriteEffect (s.afterTurn rest) v r t)

/-- The engine's turn, by the schedule or because the schedule is empty. -/
theorem StepEffect.of_engineTurn {rest : List Event} (hs : s.events = [] ∨ ∃ rest, s.events = .engine :: rest)
    (h : EngineTurn (s.afterTurn rest) t) : StepEffect s t := by
  cases h with
  | idle hb => exact .quiet ⟨rfl, rfl, rfl, rfl, rfl, rfl, rfl⟩
  | command i t hb hd he hc => exact .command rest i ⟨hb, hs⟩ hd he
  | illegal c hb hd hc => exact .illegal rest c ⟨hb, hs⟩ (by rintro rfl; simp at hc) rfl

theorem step_effect (h : step s = .next t) : StepEffect s t := by
  obtain ⟨he, ht⟩ | ⟨rest, he, ht⟩ | ⟨a, rest, he, ht⟩ := step_next_cases s t h
  · exact .of_engineTurn (rest := []) (.inl he) (by rwa [State.afterTurn_self he])
  · exact .of_engineTurn (.inr ⟨rest, he⟩) ht
  · obtain ⟨hl, ⟨-, rfl⟩ | ⟨v, hop, rfl⟩⟩ := hostAccess_next_cases _ _ _ ht
    · exact .quiet ((s.afterTurn rest).hostRead_sameBlock _)
    · exact .write rest _ v ⟨a, rest, he, (Access.legal_iff _ _).mpr hl, hop, rfl⟩ (State.hostWrite_effect _ _ v)

end

/-! ### STATUS stays coherent (R27 to R30) -/

section
variable {st : Status}

theorem Status.cleared_coherent : Status.cleared.Coherent := ⟨nofun, by simp [Status.cleared]⟩

theorem Status.issue_coherent (st : Status) : st.issue.Coherent := ⟨fun _ => ⟨rfl, rfl⟩, by simp⟩

theorem Status.fail_coherent (st : Status) {c : ErrCode} (hne : c ≠ .none) : (st.fail c).Coherent :=
  ⟨nofun, by simp [hne]⟩

theorem Status.Coherent.succeed (h : st.Coherent) : st.succeed.Coherent := ⟨nofun, h.err_iff_code⟩

theorem Status.Coherent.withFlag (h : st.Coherent) (w : Bool) : (st.withFlag w).Coherent :=
  ⟨h.quiet_while_busy, h.err_iff_code⟩

theorem Status.Coherent.overrun (h : st.Coherent) : st.overrun.Coherent := ⟨h.quiet_while_busy, h.err_iff_code⟩

theorem Status.Coherent.clearBy (h : st.Coherent) (v : Word) : (st.clearBy v).Coherent := by
  refine ⟨fun hb => ?_, ?_⟩
  · obtain ⟨hdone, herr⟩ := h.quiet_while_busy hb
    simp [hdone, herr]
  · rw [Status.clearBy_err, Status.clearBy_errcode]
    cases v.getLsbD 2 with
    | true => simp
    | false => simpa using h.err_iff_code

theorem Completion.coherent {i : Instr} {s t : State} (hc : Completion i s t) (h : s.status.Coherent) :
    t.status.Coherent := by
  cases hc with
  | error c hne => exact Status.fail_coherent _ hne
  | result => exact h.succeed
  | witness rd ra rn w => exact (h.withFlag w).succeed
  | digest => exact h.succeed

theorem WriteEffect.coherent {s t : State} {v : Word} {r : WindowReg} (hw : WriteEffect s v r t)
    (h : s.status.Coherent) : t.status.Coherent := by
  cases hw with
  | issue => exact Status.issue_coherent _
  | drop => exact h.overrun
  | clear => exact h.clearBy v
  | reset => exact Status.cleared_coherent
  | _ => exact h

end

/-! ### Big-number registers stay in their bound (R21, R100) -/

section
variable {s t : State} {B : Nat}

/-- Every big-number register is below `B`. -/
def State.XBelow (s : State) (B : Nat) : Prop := ∀ k : Fin 8, s.x[k] < B

theorem State.XBelow.readX (hx : s.XBelow B) (r : RegField) : s.readX r < B := by
  have hB : 0 < B := (Nat.zero_le _).trans_lt (hx 0)
  unfold State.readX
  by_cases hr : r.toNat < NXREG
  · simpa [hr] using hx ⟨r.toNat, hr⟩
  · simpa [hr] using hB

theorem getElem_set_lt {x : Vector Nat 8} (hx : ∀ k : Fin 8, x[k] < B) {v : Nat} (hv : v < B) (r : Nat) (k : Fin 8) :
    (x.setIfInBounds r v)[k] < B := by
  by_cases hk : r = k.val
  · subst hk
    simpa using hv
  · rw [Fin.getElem_fin, Vector.getElem_setIfInBounds_ne _ hk]
    exact hx k

theorem State.XBelow.writeX (hx : s.XBelow B) {v : Nat} (hv : v < B) (r : RegField) : (s.writeX r v).complete.XBelow B :=
  getElem_set_lt hx hv r.toNat

theorem State.XBelow.withOperands {i : Instr} {rule : State} (hx : s.XBelow B) (hrule : rule.XBelow B)
    (he : s.withOperands i rule = .next t) : t.XBelow B := by
  rw [State.withOperands_eq] at he
  cases he
  split
  · exact hrule
  · exact hx

/-- No result is larger than an operand, or than 1 (R100): each is a residue of the modulus, a divisor of an operand, or a bit. -/
theorem exec_xBelow {i : Instr} (hB : 1 < B) (hx : s.XBelow B) (he : exec i s = .next t) : t.XBelow B := by
  have residue : ∀ {v : Nat} {rn : RegField}, v < s.readX rn → v < B := fun hv => hv.trans (hx.readX _)
  cases i with
  | montmul rd ra rb rn =>
    refine hx.withOperands ?_ he
    split
    · exact hx
    · split
      · exact hx
      · next hn hodd => exact hx.writeX (residue (montProduct_spec _ _ _ _ (by omega)).1) rd
  | modexp rd ra rb rn =>
    refine hx.withOperands ?_ he
    split
    · exact hx
    · next hn => exact hx.writeX (residue (powMod_eq _ _ _ ▸ Nat.mod_lt _ (Nat.pos_of_ne_zero hn))) rd
  | gcd rd ra rb =>
    refine hx.withOperands (hx.writeX ?_ rd) he
    rw [euclid_eq_gcd]
    obtain ha | ha := Nat.eq_zero_or_pos (s.readX ra)
    · rw [ha, Nat.gcd_zero_left]
      exact hx.readX rb
    · exact (Nat.gcd_le_left _ ha).trans_lt (hx.readX ra)
  | modinv rd ra rn =>
    refine hx.withOperands ?_ he
    split
    · exact hx
    · split
      · exact hx
      · next hn _ y hy => exact hx.writeX (residue (modInv?_spec _ _ _ hn hy).1) rd
  | mrwit rd ra rn =>
    refine hx.withOperands ?_ he
    split
    · exact hx
    · exact getElem_set_lt hx ((Bool.toNat_le _).trans_lt hB) rd.toNat
  | shainit =>
    cases he.symm.trans (exec_shainit s)
    exact hx
  | shacomp =>
    cases he.symm.trans (exec_shacomp s)
    exact hx

/-- A write to a word below NW keeps the bound (R53). -/
theorem WriteEffect.xBelow {v : Word} {r : WindowReg} {nw : Nat} (hw : WriteEffect s v r t)
    (hr : ∀ i j, r = .x i j → j < nw) (hx : s.XBelow (2 ^ (32 * nw))) : t.XBelow (2 ^ (32 * nw)) := by
  cases hw with
  | reset => exact fun k => by simp
  | storeX i j hb =>
    have hstore := setXWord_lt nw s.x[i] j v (hx i) (hr i j rfl)
    intro k
    by_cases hk : i = k
    · subst hk
      simpa using hstore
    · simpa [Vector.getElem_set_ne _ _ (Fin.val_ne_of_ne hk)] using hx k
  | _ => exact hx

end

end Sys2Proof.Machine

open Sys2Proof Sys2Proof.Machine

/-- Settles O38: by what the step has done (`StepEffect`); a result is a residue, a divisor or a bit, and a word written stays
within the register. -/
theorem stepKeepsInvariant : Obligations.StepKeepsInvariant := by
  intro s t ⟨hvalid, hx, hcoh⟩ h
  obtain ⟨hparams, -⟩ := step_params_events h
  obtain ⟨-, hnw⟩ := nw_of_valid _ hvalid
  suffices t.XBelow (2 ^ s.params.opw) ∧ t.status.Coherent from
    ⟨hparams ▸ hvalid, hparams ▸ this.1, this.2⟩
  cases step_effect h with
  | quiet hsame =>
    obtain ⟨-, hx', -, -, hst, -, -⟩ := hsame
    rw [State.XBelow, hx', hst]
    exact ⟨hx, hcoh⟩
  | command rest i hc hd he =>
    have hB : 1 < 2 ^ s.params.opw := Nat.one_lt_two_pow (by
      simp only [Params.valid, Bool.and_eq_true, decide_eq_true_eq] at hvalid
      omega)
    exact ⟨exec_xBelow (s := s.afterTurn rest) hB hx he, (Completion.of_exec he).coherent hcoh⟩
  | illegal rest c hc hne ht =>
    subst ht
    exact ⟨hx, Status.fail_coherent _ hne⟩
  | write rest r v hw he =>
    obtain ⟨a, rest', -, -, -, rfl⟩ := hw
    rw [← hnw] at hx ⊢
    exact ⟨he.xBelow (fun i j hr => lt_nw_of_windowReg_eq_x hr) hx, he.coherent hcoh⟩

/-- Settles O37: every register is 0, STATUS is clear and the schedule is empty; the open parameters are in bounds
(`params_valid`). -/
theorem resetMeetsInvariant : Obligations.ResetMeetsInvariant := by
  have hreset : ∀ p : Params, p.valid = true → (State.resetFor p).Inv := fun p hp =>
    ⟨hp, fun k => by simp, Status.cleared_coherent⟩
  exact ⟨hreset, hreset _ params_valid, nofun, rfl⟩

end

section
/-!
PROOFS. What can change a register over every step (10_state.md, 20_memory.md section 4), one field after the other, by the
inversion `StepEffect`; and which accesses stop the block (20_memory.md sections 1 and 2).
-/

namespace Sys2Proof.Machine

/-- A vector changes by a write only where it is written. -/
theorem eq_of_getElem_set_ne {α : Type} {n : Nat} {x : Vector α n} {i k : Fin n} {v : α}
    (hne : (x.set i v)[k] ≠ x[k]) : i = k := by
  by_contra hik
  exact hne (Vector.getElem_set_ne _ _ (Fin.val_ne_of_ne hik))

/-- The states agree in what the statements of this section watch: X, H, M, FLAG and CMDLATCH. -/
structure State.SameData (s t : State) : Prop where
  x : t.x = s.x
  h : t.h = s.h
  m : t.m = s.m
  flag : t.status.flag = s.status.flag
  cmdlatch : t.cmdlatch = s.cmdlatch

/-- Only a command that decodes, and a write of the host, change any of them. -/
theorem step_data {s t : State} (h : step s = .next t) : s.SameData t ∨
    (∃ rest i, s.EngineCompletes ∧ decode s.cmdlatch = .ok i ∧ exec i (s.afterTurn rest) = .next t) ∨
    ∃ rest r v, s.HostWrites r v ∧ WriteEffect (s.afterTurn rest) v r t := by
  cases step_effect h with
  | quiet hsame =>
    obtain ⟨-, hx, hh, hm, hst, -, hlatch⟩ := hsame
    exact .inl ⟨hx, hh, hm, by rw [hst], hlatch⟩
  | illegal rest c hc _ ht =>
    subst ht
    exact .inl ⟨rfl, rfl, rfl, rfl, rfl⟩
  | command rest i hc hd he => exact .inr (.inl ⟨rest, i, hc, hd, he⟩)
  | write rest r v hw he => exact .inr (.inr ⟨rest, r, v, hw, he⟩)

end Sys2Proof.Machine

open Sys2Proof Sys2Proof.Machine

/-- Settles O31: neither the width's check nor the alignment's lets the access through, and the one before them refuses too. -/
theorem oddAccessesAreRefused : Obligations.OddAccessesAreRefused := by
  intro s a rest he hodd
  rw [step_access he]
  unfold hostAccess
  by_cases hhost : a.host = 0
  · by_cases hwidth : a.width = 32
    · obtain ⟨hwin, halign⟩ := hodd.resolve_left (not_not_intro hwidth)
      exact ⟨.misaligned a.addr, by simp [hhost, hwidth, hwin, halign]⟩
    · exact ⟨.accessWidth a.width, by simp [hhost, hwidth]⟩
  · exact ⟨.secondHost a.host, if_pos hhost⟩

/-- Settles O32: the host's number is checked first, and the window after the width. -/
theorem foreignAccessesStop : Obligations.ForeignAccessesStop := by
  intro s a rest he
  rw [step_access he]
  unfold hostAccess
  refine ⟨fun hhost => if_pos hhost, fun hhost hwidth hout => ?_⟩
  have hwin : inWindow s.params a.addr = false := by
    simp only [inWindow, Bool.and_eq_false_iff, decide_eq_false_iff_not]
    omega
  simp [hhost, hwidth, hwin]

/-- Settles O39: of the effects only MRWIT's result and the soft reset move FLAG, and MRWIT has a result only for a candidate
above 1. -/
theorem flagChangesOnlyByMrwit : Obligations.FlagChangesOnlyByMrwit := by
  intro s t h hne
  obtain hsame | ⟨rest, i, hc, hd, he⟩ | ⟨rest, r, v, hw, hwrite⟩ := step_data h
  · exact absurd hsame.flag hne
  · cases Completion.of_exec he with
    | witness rd ra rn w hwf hi =>
      subst hi
      refine .inl ⟨hc, rd, ra, rn, hd, ?candidate, ?result⟩
      case candidate =>
        by_contra hsmall
        have hfail := Host.Outcome.next.inj (he.symm.trans (exec_mrwit_nSmall hwf (Nat.le_of_not_lt hsmall)))
        exact hne (congrArg (·.status.flag) hfail)
      case result =>
        have hrd : rd.toNat < NXREG := destX_lt hwf rfl
        simp [hrd]
    | _ => exact absurd rfl hne
  · cases hwrite with
    | reset hv => exact .inr ⟨v, hw, hv⟩
    | _ => exact absurd rfl hne

/-- Settles O40: no completion writes M, and of the writes only that to the register and the soft reset do. -/
theorem messageChangesOnlyByHost : Obligations.MessageChangesOnlyByHost := by
  intro s t k h hne
  obtain hsame | ⟨rest, i, hc, hd, he⟩ | ⟨rest, r, v, hw, hwrite⟩ := step_data h
  · exact absurd (by rw [hsame.m]) hne
  · exact absurd (by rw [(Completion.of_exec he).frame]; rfl) hne
  · cases hwrite with
    | reset hv => exact .inr ⟨v, hw, hv⟩
    | storeM i hb =>
      obtain rfl := eq_of_getElem_set_ne hne
      exact .inl ⟨hb, v, hw⟩
    | _ => exact absurd rfl hne

/-- Settles O41: a completion writes no register but its RD (`Completion.x_eq`), and of the writes only that to a word of the
register and the soft reset do. -/
theorem xChangesOnlyByHostOrResult : Obligations.XChangesOnlyByHostOrResult := by
  intro s t k h hne
  obtain hsame | ⟨rest, i, hc, hd, he⟩ | ⟨rest, r, v, hw, hwrite⟩ := step_data h
  · exact absurd (by rw [hsame.x]) hne
  · refine .inr (.inl ⟨hc, i, ?_⟩)
    by_contra hnot
    have hk : ∀ rd, destX i = some rd → k.val ≠ rd.toNat := fun rd hrd hkrd => hnot ⟨rd, hd, hrd, hkrd.symm⟩
    exact hne ((Completion.of_exec he).x_eq hk)
  · cases hwrite with
    | reset hv => exact .inr (.inr ⟨v, hw, hv⟩)
    | storeX i j hb =>
      obtain rfl := eq_of_getElem_set_ne hne
      exact .inl ⟨hb, j, v, hw⟩
    | _ => exact absurd rfl hne

/-- Settles O42: of the completions only those of SHAINIT and SHACOMP write H (`Completion.h_eq`). -/
theorem hashChangesOnlyByHostOrSha : Obligations.HashChangesOnlyByHostOrSha := by
  intro s t k h hne
  obtain hsame | ⟨rest, i, hc, hd, he⟩ | ⟨rest, r, v, hw, hwrite⟩ := step_data h
  · exact absurd (by rw [hsame.h]) hne
  · refine .inr (.inl ⟨hc, ?_⟩)
    cases i with
    | shainit => exact .inl hd
    | shacomp => exact .inr hd
    | _ => exact absurd (by rw [(Completion.of_exec he).h_eq rfl]; rfl) hne
  · cases hwrite with
    | reset hv => exact .inr (.inr ⟨v, hw, hv⟩)
    | storeH i hb =>
      obtain rfl := eq_of_getElem_set_ne hne
      exact .inl ⟨hb, v, hw⟩
    | _ => exact absurd rfl hne

/-- Settles O43: of the effects only an issue and the soft reset write CMDLATCH. -/
theorem cmdlatchChangesOnlyByIssue : Obligations.CmdlatchChangesOnlyByIssue := by
  intro s t h hne
  obtain hsame | ⟨rest, i, hc, hd, he⟩ | ⟨rest, r, v, hw, hwrite⟩ := step_data h
  · exact absurd hsame.cmdlatch hne
  · exact absurd (by rw [(Completion.of_exec he).frame]; rfl) hne
  · cases hwrite with
    | issue hb => exact .inl ⟨hb, v, hw, rfl⟩
    | reset hv => exact .inr ⟨v, hw, hv⟩
    | _ => exact absurd rfl hne

/-- Settles O44: a completion clears BUSY and sets DONE, an issue sets BUSY, the soft reset clears it, and nothing else moves
it. -/
theorem busyRisesByIssueFallsByCompletion : Obligations.BusyRisesByIssueFallsByCompletion := by
  intro s t h
  have unmoved : t.status.busy = s.status.busy →
      (s.status.busy = false → t.status.busy = true → ∃ v, s.HostWrites .cmd v ∧ t.cmdlatch = v) ∧
      (s.status.busy = true → t.status.busy = false → (s.EngineCompletes ∧ t.status.done = true) ∨ s.HostResets) := by
    intro heq
    rw [heq]
    exact ⟨fun h0 h1 => absurd (h0.symm.trans h1) nofun, fun h1 h0 => absurd (h0.symm.trans h1) nofun⟩
  cases step_effect h with
  | quiet hsame =>
    obtain ⟨-, -, -, -, hst, -⟩ := hsame
    exact unmoved (by rw [hst])
  | illegal rest c hc _ ht =>
    subst ht
    exact ⟨fun _ => nofun, fun _ _ => .inl ⟨hc, rfl⟩⟩
  | command rest i hc hd he =>
    obtain ⟨hb, hdone⟩ := (Completion.of_exec he).busy_done
    rw [hb]
    exact ⟨fun _ => nofun, fun _ _ => .inl ⟨hc, hdone⟩⟩
  | write rest r v hw he =>
    cases he with
    | issue hb => exact ⟨fun _ _ => ⟨v, hw, rfl⟩, fun _ => nofun⟩
    | reset hv => exact ⟨fun _ => nofun, fun _ _ => .inr ⟨v, hw, hv⟩⟩
    | _ => exact unmoved rfl

end

section
/-!
PROOFS. Runs: safe runs go on and end (60_exceptions.md, R191, R196; 70_reset_and_hazards.md, R229, R230), and a completion that
meets a host write has the outcome of either order (R200).
-/

namespace Sys2Proof.Machine

/-! ### Running the machine -/

section
variable {s t u : State} {k : Nat}

@[simp] theorem run_zero (s : State) : Host.Core.run Sys2Proof.core 0 s = .next s := rfl

theorem run_succ (h : step s = .next t) : Host.Core.run Sys2Proof.core (k + 1) s = Host.Core.run Sys2Proof.core k t := by
  have hcore : Sys2Proof.core.step s = .next t := h
  simp only [Host.Core.run, hcore]

/-- Steps that go through a chain of states make a run to its end. -/
theorem run_of_chain (f : Nat → State) (n : Nat) (h : ∀ j < n, step (f j) = .next (f (j + 1))) :
    Host.Core.run Sys2Proof.core n (f 0) = .next (f n) := by
  induction n generalizing f with
  | zero => rfl
  | succ n ih => exact (run_succ (h 0 n.succ_pos)).trans (ih (fun j => f (j + 1)) fun j hj => h (j + 1) (by omega))

theorem run_two (h : step s = .next t) (h' : step t = .next u) : Host.Core.run Sys2Proof.core 2 s = .next u :=
  (run_succ h).trans ((run_succ h').trans (run_zero u))

end

/-! ### Safe runs -/

section
variable {s t : State}

theorem exists_step_of_safe (hs : s.Safe) : ∃ t, step s = .next t := by
  have engine : ∀ rest, s.events = .engine :: rest ∨ s.events = [] ∧ rest = [] → ∃ t, step s = .next t :=
    fun rest he => by
      rw [step_engine he]
      obtain ⟨t, ht, -⟩ := engineTurn_cases (s.afterTurn rest)
      exact ⟨t, ht⟩
  cases he : s.events with
  | nil => exact engine [] (.inr ⟨he, rfl⟩)
  | cons e rest =>
    cases e with
    | engine => exact engine rest (.inl he)
    | access a =>
      rw [step_access he]
      exact exists_hostAccess_of_legal (hs (.access a) (he ▸ List.mem_cons_self))

/-- The schedule of the next state is the rest of the schedule, on the same chip. -/
theorem safe_of_step (hs : s.Safe) (h : step s = .next t) : t.Safe := by
  obtain ⟨hparams, hevents⟩ := step_params_events h
  intro e he
  rw [hevents] at he
  rw [hparams]
  exact hs e (List.mem_of_mem_tail he)

/-- After the engine's turn no command is in progress (R95). -/
theorem EngineTurn.busy_eq_false (h : EngineTurn s t) : t.status.busy = false := by
  cases h with
  | idle hb => exact hb
  | command i t hb hd he hc => exact hc.busy_done.1
  | illegal c => rfl

theorem ended_of_step (he : s.events = []) (h : step s = .next t) : t.events = [] ∧ t.Ended := by
  have hevents : t.events = [] := by rw [(step_params_events h).2, he, List.tail_nil]
  refine ⟨hevents, by simp [hevents], ?_⟩
  obtain ⟨-, ht⟩ | ⟨rest, he', -⟩ | ⟨a, rest, he', -⟩ := step_next_cases s t h
  · exact ht.busy_eq_false
  · exact absurd (he.symm.trans he') nofun
  · exact absurd (he.symm.trans he') nofun

end

/-! ### A step whose turn is an access (R12) -/

section
variable {s : State} {off : Nat} {v : Word} {rest : List Event} (halign : off % 4 = 0) (hwin : off < 0x4000)
include halign hwin

theorem step_memWrite_afterTurn (he : s.events = memWrite s.params off v :: rest) :
    step s = .next ((s.afterTurn rest).hostWrite (windowReg s.params.nw off) v) :=
  step_memWrite s off v rest halign hwin he

theorem step_memRead_afterTurn (he : s.events = memRead s.params off :: rest) :
    step s = .next ((s.afterTurn rest).hostRead (windowReg s.params.nw off)) :=
  step_memRead s off rest halign hwin he

end

/-! ### A completion among the host's accesses (R200) -/

section
variable {s : State} {rest : List Event}

/-- What the completion step leaves for the accesses after it. -/
structure Completed (s t : State) (rest : List Event) : Prop where
  busy : t.status.busy = false
  done : t.status.done = true
  params : t.params = s.params
  events : t.events = rest
  cmdlatch : t.cmdlatch = s.cmdlatch
  ovr : t.status.ovr = s.status.ovr

theorem exists_step_completed (hb : s.status.busy = true) (he : s.events = .engine :: rest) :
    ∃ t, step s = .next t ∧ Completed s t rest := by
  rw [step_engine (.inl he)]
  obtain ⟨t, ht, hturn⟩ := engineTurn_cases (s.afterTurn rest)
  refine ⟨t, ht, ?_⟩
  cases hturn with
  | idle hidle => exact absurd (hb.symm.trans hidle) nofun
  | command i t _ hd he hc =>
    cases hc with
    | _ => exact ⟨rfl, rfl, rfl, rfl, rfl, rfl⟩
  | illegal c => exact ⟨rfl, rfl, rfl, rfl, rfl, rfl⟩

end

end Sys2Proof.Machine

open Sys2Proof Sys2Proof.Machine

/-- Settles O45: a legal access is performed and the engine's turn always answers; what is left of the schedule is legal. -/
theorem safeRunsNeverStop : Obligations.SafeRunsNeverStop := by
  intro s hs
  obtain ⟨t, ht⟩ := exists_step_of_safe hs
  exact ⟨t, ht, safe_of_step hs ht⟩

/-- Settles O46, by induction on the length of the schedule: the step after its last turn is the engine's, and completes the
command in progress. -/
theorem safeRunsEnd : Obligations.SafeRunsEnd := by
  intro s
  induction hn : s.events.length generalizing s with
  | zero =>
    intro hs
    obtain ⟨t, ht⟩ := exists_step_of_safe hs
    exact ⟨t, run_succ ht, ended_of_step (List.eq_nil_of_length_eq_zero hn) ht⟩
  | succ n ih =>
    intro hs
    obtain ⟨t, ht⟩ := exists_step_of_safe hs
    obtain ⟨u, hu, hend⟩ := ih t (by rw [(step_params_events ht).2, List.length_tail, hn]; rfl) (safe_of_step hs ht)
    exact ⟨u, (run_succ ht).trans hu, hend⟩

/-- Settles O47: the two steps in each order. A completion leaves BUSY clear, so a CMD write after it is issued; a CMD write before
it is dropped; and an acknowledge clears DONE only after it. -/
theorem racesHaveBothOutcomes : Obligations.RacesHaveBothOutcomes := by
  intro s v hb
  refine ⟨fun he => ?complete_issue, fun he => ?drop_complete, fun hv he => ?ack_complete, fun hv he => ?complete_ack⟩
  case complete_issue =>
    obtain ⟨t, ht, hc⟩ := exists_step_completed hb he
    have hw : step t = .next ((t.afterTurn []).issue v) := by
      rw [step_memWrite_afterTurn (off := 0x00C) (v := v) (by decide) (by decide) (by rw [hc.events, hc.params]),
        windowReg_cmd, State.hostWrite_cmd_idle (s := t.afterTurn []) hc.busy]
    exact ⟨_, run_two ht hw, rfl, rfl, hc.ovr⟩
  case drop_complete =>
    have hw : step s = .next (s.afterTurn [.engine]).dropCommand := by
      rw [step_memWrite_afterTurn (by decide) (by decide) he, windowReg_cmd,
        State.hostWrite_cmd_busy (s := s.afterTurn [.engine]) hb]
    obtain ⟨t, ht, hc⟩ := exists_step_completed (s := (s.afterTurn [.engine]).dropCommand) hb rfl
    exact ⟨t, run_two hw ht, hc.busy, hc.done, hc.cmdlatch, hc.ovr⟩
  case ack_complete =>
    have hw := step_memWrite_afterTurn (by decide) (by decide) he
    obtain ⟨t, ht, hc⟩ := exists_step_completed (s := (s.afterTurn [.engine]).hostWrite .status v) hb rfl
    exact ⟨t, run_two hw ht, hc.busy, hc.done⟩
  case complete_ack =>
    obtain ⟨t, ht, hc⟩ := exists_step_completed hb he
    have hw := step_memWrite_afterTurn (s := t) (off := 0x008) (v := v) (by decide) (by decide)
      (by rw [hc.events, hc.params])
    exact ⟨_, run_two ht hw, hc.busy, by simp [hv]⟩

end

section
/-!
PROOFS. The host's `wrx` and `rdx` (30_encoding.md section 4, R90): a run of one access for each word of the register (R13, R53).
-/

namespace Sys2Proof.Machine

/-! ### The words of a number (R13, R53) -/

/-- `x` after words 0 to `j - 1` of `v` have been written to it. -/
def writtenBelow (x v j : Nat) : Nat := x / 2 ^ (32 * j) * 2 ^ (32 * j) + v % 2 ^ (32 * j)

@[simp] theorem writtenBelow_zero (x v : Nat) : writtenBelow x v 0 = x := by simp [writtenBelow, Nat.mod_one]

theorem writtenBelow_of_lt {x v j : Nat} (hx : x < 2 ^ (32 * j)) (hv : v < 2 ^ (32 * j)) : writtenBelow x v j = v := by
  rw [writtenBelow, Nat.div_eq_of_lt hx, Nat.mod_eq_of_lt hv, Nat.zero_mul, Nat.zero_add]

theorem toNat_xWord (x j : Nat) : (xWord x j).toNat = x / 2 ^ (32 * j) % 2 ^ 32 := BitVec.toNat_ofNat _ _

/-- A number modulo `j + 1` words is its word `j` and what is below. -/
theorem mod_succ_words (v j : Nat) :
    v % 2 ^ (32 * (j + 1)) = (xWord v j).toNat * 2 ^ (32 * j) + v % 2 ^ (32 * j) := by
  rw [toNat_xWord, Nat.mul_succ, pow_add, Nat.mod_mul, Nat.add_comm, Nat.mul_comm (2 ^ (32 * j))]

/-- Writing word `j` of `v` writes one word more. -/
theorem setXWord_writtenBelow (x v j : Nat) :
    setXWord (writtenBelow x v j) j (xWord v j) = writtenBelow x v (j + 1) := by
  have hpos : 0 < 2 ^ (32 * j) := by positivity
  have hlow : v % 2 ^ (32 * j) < 2 ^ (32 * j) := Nat.mod_lt _ hpos
  have hdiv : writtenBelow x v j / 2 ^ (32 * j) = x / 2 ^ (32 * j) := by
    rw [writtenBelow, Nat.add_comm, Nat.add_mul_div_right _ _ hpos, Nat.div_eq_of_lt hlow, Nat.zero_add]
  have hmod : writtenBelow x v j % 2 ^ (32 * j) = v % 2 ^ (32 * j) := by
    rw [writtenBelow, Nat.add_comm, Nat.add_mul_mod_self_right, Nat.mod_mod]
  have htop : writtenBelow x v j / 2 ^ (32 * j + 32) = x / 2 ^ (32 * j + 32) := by
    rw [pow_add, ← Nat.div_div_eq_div_mul, hdiv, Nat.div_div_eq_div_mul]
  rw [setXWord_eq, htop, hmod, writtenBelow, mod_succ_words, Nat.mul_succ, Nat.add_assoc]

/-- The value of the words `j` to `j + n - 1` of a number. -/
theorem rdxValue_map_xWord (x : Nat) (n j : Nat) :
    rdxValue ((List.range' j n).map (xWord x)) = x / 2 ^ (32 * j) % 2 ^ (32 * n) := by
  induction n generalizing j with
  | zero => simp [rdxValue, Nat.mod_one]
  | succ n ih =>
    rw [List.range'_succ, List.map_cons, rdxValue, ih, toNat_xWord, Nat.mul_succ 32 n, Nat.add_comm (32 * n), pow_add,
      Nat.mod_mul, Nat.div_div_eq_div_mul, ← pow_add]
    rfl

/-! ### The states such a run goes through -/

section
variable (s : State) (i : Fin 8) (rest : List Event)

/-- `s` when `j` accesses of `wrx xI, V` have been performed. -/
def State.afterWrx (V j : Nat) : State :=
  { s with events := (wrx s.params i V).drop j ++ rest, x := s.x.set i (writtenBelow s.x[i] V j) }

/-- `s` when `j` accesses of `rdx xI` have been performed. -/
def State.afterRdx (j : Nat) : State :=
  { s with
    events := (rdx s.params i).drop j ++ rest
    reads := ((List.range j).map (xWord s.x[i])).reverse ++ s.reads }

theorem State.afterWrx_params (V j : Nat) : (s.afterWrx i rest V j).params = s.params := rfl
theorem State.afterRdx_params (j : Nat) : (s.afterRdx i rest j).params = s.params := rfl

variable {s i rest} {j : Nat}

theorem drop_wrx (p : Params) (i V : Nat) (hj : j < p.nw) :
    (wrx p i V).drop j = memWrite p (xOffset i j) (xWord V j) :: (wrx p i V).drop (j + 1) := by
  rw [List.drop_eq_getElem_cons (by simpa [wrx] using hj)]
  simp [wrx]

theorem drop_rdx (p : Params) (i : Nat) (hj : j < p.nw) :
    (rdx p i).drop j = memRead p (xOffset i j) :: (rdx p i).drop (j + 1) := by
  rw [List.drop_eq_getElem_cons (by simpa [rdx] using hj)]
  simp [rdx]

theorem step_afterWrx (hb : s.status.busy = false) (hnw : s.params.nw ≤ 256) (hj : j < s.params.nw) (V : Nat) :
    step (s.afterWrx i rest V j) = .next (s.afterWrx i rest V (j + 1)) := by
  have he : (s.afterWrx i rest V j).events = memWrite s.params (xOffset i j) (xWord V j) ::
      ((wrx s.params i V).drop (j + 1) ++ rest) := by
    rw [State.afterWrx, drop_wrx _ _ _ hj]
    rfl
  have hidle : ((s.afterWrx i rest V j).afterTurn ((wrx s.params i V).drop (j + 1) ++ rest)).status.busy = false := hb
  rw [step_memWrite_x (by omega) he, State.afterWrx_params, if_pos hj, State.hostWrite_x_idle hidle]
  simp [State.afterWrx, State.afterTurn, setXWord_writtenBelow]

theorem step_afterRdx (hb : s.status.busy = false) (hnw : s.params.nw ≤ 256) (hj : j < s.params.nw) :
    step (s.afterRdx i rest j) = .next (s.afterRdx i rest (j + 1)) := by
  have he : (s.afterRdx i rest j).events = memRead s.params (xOffset i j) :: ((rdx s.params i).drop (j + 1) ++ rest) := by
    rw [State.afterRdx, drop_rdx _ _ hj]
    rfl
  have hidle : ((s.afterRdx i rest j).afterTurn ((rdx s.params i).drop (j + 1) ++ rest)).status.busy = false := hb
  rw [step_memRead_x (by omega) he, State.afterRdx_params, if_pos hj, State.hostRead_idle hidle]
  simp [State.afterRdx, State.afterTurn, State.answer, State.peek, List.range_succ]

end

end Sys2Proof.Machine

open Sys2Proof Sys2Proof.Machine

/-- Settles O59: `wrx` writes the words of `V` from word 0 on, and NW words are the whole register. -/
theorem wrxLoadsTheRegister : Obligations.WrxLoadsTheRegister := by
  intro s i V rest ⟨hvalid, hx, _⟩ hV hb he
  obtain ⟨hnw, hopw⟩ := nw_of_valid _ hvalid
  have hfirst : s.afterWrx i rest V 0 = s := by
    simp [State.afterWrx, ← he]
  have hlast : s.afterWrx i rest V s.params.nw = { s with events := rest, x := s.x.set i V } := by
    rw [State.afterWrx, writtenBelow_of_lt (hopw ▸ hx i) (hopw ▸ hV)]
    simp [wrx]
  have hrun := run_of_chain (s.afterWrx i rest V) s.params.nw fun j hj => step_afterWrx hb hnw hj V
  rwa [hfirst, hlast] at hrun

/-- Settles O60: `rdx` answers the words of Xi from word 0 on, and NW words are the whole register. -/
theorem rdxReadsTheRegister : Obligations.RdxReadsTheRegister := by
  intro s i rest ⟨hvalid, hx, _⟩ hb he
  obtain ⟨hnw, hopw⟩ := nw_of_valid _ hvalid
  have hfirst : s.afterRdx i rest 0 = s := by
    simp [State.afterRdx, ← he]
  have hlast : (rdx s.params i).drop s.params.nw = [] := by simp [rdx]
  have hrun := run_of_chain (s.afterRdx i rest) s.params.nw fun j hj => step_afterRdx hb hnw hj
  rw [hfirst, State.afterRdx, hlast] at hrun
  refine ⟨(List.range s.params.nw).map (xWord s.x[i]), by simp, ?_, hrun⟩
  rw [List.range_eq_range', rdxValue_map_xWord, hopw, Nat.mul_zero, pow_zero, Nat.div_one]
  exact Nat.mod_eq_of_lt (hx i)

end

section
/-!
PROOFS. The register window (spec/20_memory.md section 4): what a host access does to the words of X, H and M and to reserved
offsets, with BUSY and without, and what the control registers read.
-/

namespace Sys2Proof.Machine

/-! ### The reserved offsets of the map (R51, R57) -/

theorem windowReg_reserved {off : Nat} (nw : Nat) (hoff : (0x010 ≤ off ∧ off < 0x100) ∨ (0x120 ≤ off ∧ off < 0x140) ∨
    (0x180 ≤ off ∧ off < 0x1000) ∨ (0x3000 ≤ off ∧ off < 0x4000)) : windowReg nw off = .reserved := by
  unfold windowReg
  rw [if_neg (by omega), if_neg (by omega), if_neg (by omega), if_neg (by omega), if_neg (by omega), if_neg (by omega),
    if_neg (by omega)]

/-! ### Writes to the data registers (R59, R61) -/

section
variable {s : State} {r : WindowReg} {v : Word}

/-- The register holds a word of X, H or M. -/
def WindowReg.IsData (r : WindowReg) : Prop := (∃ i j, r = .x i j) ∨ (∃ i, r = .h i) ∨ ∃ i, r = .m i

/-- With BUSY = 1 a write to a data register is ignored (R61). -/
theorem State.hostWrite_busy (hb : s.status.busy = true) (hr : r.IsData) : s.hostWrite r v = s := by
  obtain ⟨i, j, rfl⟩ | ⟨i, rfl⟩ | ⟨i, rfl⟩ := hr
  all_goals exact if_pos hb

theorem State.hostWrite_h_idle (hb : s.status.busy = false) (i : Fin 8) :
    s.hostWrite (.h i) v = { s with h := s.h.set i v } :=
  if_neg (ne_true_of_eq_false hb)

theorem State.hostWrite_m_idle (hb : s.status.busy = false) (i : Fin 16) :
    s.hostWrite (.m i) v = { s with m := s.m.set i v } :=
  if_neg (ne_true_of_eq_false hb)

/-- Writing a word of a register twice is writing it once (R53, R59). -/
theorem setXWord_setXWord (x j : Nat) (v : Word) : setXWord (setXWord x j v) j v = setXWord x j v := by
  have hword : xWord (setXWord x j v) j = v := by rw [xWord_setXWord, if_pos rfl]
  have hsplit := split_at_word (setXWord x j v) j
  rw [hword] at hsplit
  rw [setXWord, hword]
  omega

end

/-! ### Reads (R58, R62) -/

section
variable {s : State} {r : WindowReg}

theorem State.hostRead_inFlight (hr : s.inFlight r = true) : s.hostRead r = s.answerFree := if_pos hr

theorem State.hostRead_not_inFlight (hr : s.inFlight r = false) : s.hostRead r = s.answer (s.peek r) :=
  if_neg (ne_true_of_eq_false hr)

theorem State.inFlight_command {i : Instr} (hb : s.status.busy = true) (hd : decode s.cmdlatch = .ok i) :
    s.inFlight r = writesReg i r := by
  rw [State.inFlight, hb, hd, Bool.true_and]

/-- A word that is no instruction writes no register (R97). -/
theorem State.inFlight_illegal {c : ErrCode} (hd : decode s.cmdlatch = .error c) : s.inFlight r = false := by
  rw [State.inFlight, hd, Bool.and_false]

/-- No command writes the control registers. -/
theorem State.inFlight_control (hr : r = .ctrl ∨ r = .status ∨ r = .cmd) : s.inFlight r = false := by
  unfold State.inFlight
  cases decode s.cmdlatch with
  | ok i => obtain rfl | rfl | rfl := hr <;> exact Bool.and_false _
  | error c => exact Bool.and_false _

end

section
variable {s : State} {r : WindowReg} {rest : List Event} {off : Nat}

theorem State.peek_afterTurn : (s.afterTurn rest).peek r = s.peek r := by
  cases r with
  | _ => rfl

theorem State.peek_answer (v : Word) : (s.answer v).peek r = s.peek r := by
  cases r with
  | _ => rfl

variable (halign : off % 4 = 0) (hwin : off < 0x4000) (he : s.events = memRead s.params off :: rest)
include halign hwin he

/-- A read of a register that is not in flight answers its contents (R58). -/
theorem step_memRead_contents (hr : s.inFlight (windowReg s.params.nw off) = false) :
    step s = .next ((s.afterTurn rest).answer (s.peek (windowReg s.params.nw off))) := by
  rw [step_memRead_afterTurn halign hwin he, State.hostRead_not_inFlight (s := s.afterTurn rest) hr, State.peek_afterTurn]

/-- A read of a register that is in flight answers a fresh draw (R62). -/
theorem step_memRead_free (hr : s.inFlight (windowReg s.params.nw off) = true) :
    step s = .next (s.afterTurn rest).answerFree := by
  rw [step_memRead_afterTurn halign hwin he, State.hostRead_inFlight (s := s.afterTurn rest) hr]

end

/-! ### Which offsets a command writes (R62) -/

section
variable {i : Instr} {nw off : Nat}

theorem windowReg_eq_x_iff {k : Fin 8} {j : Nat} (hnw : nw ≤ 256) (halign : off % 4 = 0) :
    windowReg nw off = .x k j ↔ j < nw ∧ off = 0x1000 + 0x400 * k + 4 * j := by
  constructor
  · intro h
    simp only [windowReg] at h
    split_ifs at h with _ _ _ _ _ _ hrange hj
    cases h
    refine ⟨hj, ?_⟩
    rw [Fin.val_ofNat]
    omega
  · rintro ⟨hj, rfl⟩
    exact (windowReg_x nw k j (by omega)).trans (if_pos hj)

theorem exists_windowReg_eq_h_iff (halign : off % 4 = 0) :
    (∃ k, windowReg nw off = .h k) ↔ 0x100 ≤ off ∧ off < 0x120 := by
  constructor
  · rintro ⟨k, h⟩
    simp only [windowReg] at h
    split_ifs at h with _ _ _ _ hrange
    exact hrange
  · intro hrange
    obtain ⟨k, hk, rfl⟩ : ∃ k, k < 8 ∧ off = 0x100 + 4 * k := ⟨(off - 0x100) / 4, by omega, by omega⟩
    exact ⟨_, windowReg_h nw ⟨k, hk⟩⟩

theorem destH_iff : destH i = true ↔ i = .shainit ∨ i = .shacomp := by
  cases i with
  | _ => simp [destH]

theorem writesReg_iff {r : WindowReg} : writesReg i r = true ↔
    (∃ rd k j, destX i = some rd ∧ rd.toNat = k.val ∧ r = .x k j) ∨ (destH i = true ∧ ∃ k, r = .h k) := by
  cases r with
  | x k j =>
    unfold writesReg
    cases destX i <;> simp
  | _ => simp [writesReg]

/-- The offset is that of a word the command writes: of its RD, or of H0..H7. -/
def WritesOffset (i : Instr) (nw off : Nat) : Prop :=
  (∃ rd j, destX i = some rd ∧ j < nw ∧ off = 0x1000 + 0x400 * rd.toNat + 4 * j) ∨
    ((i = .shainit ∨ i = .shacomp) ∧ 0x100 ≤ off ∧ off < 0x120)

theorem writesReg_windowReg_iff (hwf : i.wf = true) (hnw : nw ≤ 256) (halign : off % 4 = 0) :
    writesReg i (windowReg nw off) = true ↔ WritesOffset i nw off := by
  rw [writesReg_iff, WritesOffset, exists_windowReg_eq_h_iff halign, destH_iff]
  refine or_congr_left ⟨?_, ?_⟩
  · rintro ⟨rd, k, j, hd, hk, hr⟩
    obtain ⟨hj, hoff⟩ := (windowReg_eq_x_iff hnw halign).mp hr
    exact ⟨rd, j, hd, hj, by rw [hk, hoff]⟩
  · rintro ⟨rd, j, hd, hj, hoff⟩
    exact ⟨rd, ⟨rd.toNat, destX_lt hwf hd⟩, j, hd, rfl, (windowReg_eq_x_iff hnw halign).mpr ⟨hj, hoff⟩⟩

end

/-! ### The words of STATUS and CTRL (R26, R34, R190) -/

theorem Status.toWord_errcode (st : Status) : (st.errcode, (st.toWord.extractLsb' 8 4).toNat) ∈
    [(.none, 0), (.illOp, 1), (.illField, 2), (.modZero, 3), (.modEven, 4), (.noInverse, 5), (.nSmall, 6)] := by
  obtain ⟨-, -, -, -, -, hcode⟩ := st.toWord_bits
  rw [hcode]
  cases st.errcode <;> decide

theorem Status.extractLsb'_toWord_reserved (st : Status) :
    st.toWord.extractLsb' 5 3 = 0 ∧ st.toWord.extractLsb' 12 20 = 0 := by
  constructor
  · ext k hk
    simpa using st.toWord_reserved (k := 5 + k) (by omega)
  · ext k hk
    simpa using st.toWord_reserved (k := 12 + k) (by omega)

theorem State.ctrlWord_bits (s : State) : s.ctrlWord.getLsbD 0 = s.ie ∧ s.ctrlWord.extractLsb' 1 31 = 0 := by
  unfold State.ctrlWord
  cases s.ie <;> decide

end Sys2Proof.Machine

open Sys2Proof Sys2Proof.Machine

/-- Settles O25: the offset names a data register, which a busy block does not write. -/
theorem dataWritesWhileBusyAreIgnored : Obligations.DataWritesWhileBusyAreIgnored := by
  intro s off v rest hvalid hb hoff he
  obtain ⟨hnw, -⟩ := nw_of_valid _ hvalid
  obtain ⟨halign, hwin, hdata⟩ : off % 4 = 0 ∧ off < 0x4000 ∧ (windowReg s.params.nw off).IsData := by
    obtain ⟨i, hi, rfl⟩ | ⟨i, hi, rfl⟩ | ⟨i, j, hi, hj, rfl⟩ := hoff
    · exact ⟨by omega, by omega, .inr (.inl ⟨_, windowReg_h _ ⟨i, hi⟩⟩)⟩
    · exact ⟨by omega, by omega, .inr (.inr ⟨_, windowReg_m _ ⟨i, hi⟩⟩)⟩
    · exact ⟨by omega, by omega, .inl ⟨_, _, (windowReg_x _ ⟨i, hi⟩ j (by omega)).trans (if_pos hj)⟩⟩
  have hbusy : (s.afterTurn rest).status.busy = true := hb
  rw [step_memWrite_afterTurn halign hwin he, State.hostWrite_busy hbusy hdata]
  rfl

/-- Settles O27: the offset names the register, which an idle block gives and takes. -/
theorem hashAndMessageReadAndWrite : Obligations.HashAndMessageReadAndWrite := by
  intro s v rest hb
  have hidle : (s.afterTurn rest).status.busy = false := hb
  refine ⟨fun i => ⟨fun he => ?_, fun he => ?_⟩, fun i => ⟨fun he => ?_, fun he => ?_⟩⟩
  · rw [step_memRead_afterTurn (by omega) (by omega) he, windowReg_h, State.hostRead_idle hidle]
    rfl
  · rw [step_memWrite_afterTurn (by omega) (by omega) he, windowReg_h, State.hostWrite_h_idle hidle]
    rfl
  · rw [step_memRead_afterTurn (by omega) (by omega) he, windowReg_m, State.hostRead_idle hidle]
    rfl
  · rw [step_memWrite_afterTurn (by omega) (by omega) he, windowReg_m, State.hostWrite_m_idle hidle]
    rfl

/-- Settles O28: these offsets name no register, and a write to INFO has no effect. -/
theorem reservedOffsetsReadZero : Obligations.ReservedOffsetsReadZero := by
  intro s off v rest halign
  refine ⟨fun hoff => ⟨fun he => ?_, fun he => ?_⟩, fun he => ?_⟩
  · rw [step_memRead_afterTurn halign (by omega) he, windowReg_reserved _ hoff, State.hostRead_reserved]
    rfl
  · rw [step_memWrite_afterTurn halign (by omega) he, windowReg_reserved _ hoff, State.hostWrite_reserved]
    rfl
  · rw [step_memWrite_afterTurn (by decide) (by decide) he, windowReg_info, State.hostWrite_info]
    rfl

/-- Settles O29: a read leaves one more answer, and the second read of a register that is not in flight finds what the first
found. -/
theorem readsHaveNoSideEffect : Obligations.ReadsHaveNoSideEffect := by
  intro s off rest halign hwin
  refine ⟨fun he => ⟨_, step_memRead_afterTurn halign hwin he, State.hostRead_sameBlock _ _, State.hostRead_events _ _⟩,
    fun he hfree => ?_⟩
  have hfirst := step_memRead_contents halign hwin he hfree
  have hsecond := step_memRead_contents (s := (s.afterTurn (memRead s.params off :: rest)).answer
    (s.peek (windowReg s.params.nw off))) halign hwin rfl hfree
  rw [State.peek_answer, State.peek_afterTurn] at hsecond
  exact ⟨_, _, run_two hfirst hsecond, rfl⟩

/-- Settles O30: a busy block has in flight the registers its command writes, an idle one and one with a rejected word none. -/
theorem busyReadOfDestinationIsFree : Obligations.BusyReadOfDestinationIsFree := by
  intro s off rest hvalid halign hwin he
  obtain ⟨hnw, -⟩ := nw_of_valid _ hvalid
  refine ⟨fun i hb hd => ?command, fun c _ hd => ?illegal, fun hb => ?idle⟩
  case command =>
    have hiff : s.inFlight (windowReg s.params.nw off) = true ↔ WritesOffset i s.params.nw off := by
      rw [State.inFlight_command hb hd]
      exact writesReg_windowReg_iff (decode_eq_ok_iff.mp hd).wf hnw halign
    refine ⟨fun hw => step_memRead_free halign hwin he (hiff.mpr hw), fun hx hh => ?_⟩
    have hnot : ¬ WritesOffset i s.params.nw off := not_or_intro hx hh
    exact step_memRead_contents halign hwin he (Bool.eq_false_iff.mpr fun hr => hnot (hiff.mp hr))
  case illegal => exact step_memRead_contents halign hwin he (State.inFlight_illegal hd)
  case idle => exact step_memRead_contents halign hwin he (State.inFlight_idle hb _)

/-- Settles O33: the three registers are never in flight; their words hold the fields in their places. -/
theorem statusControlAndCmdReads : Obligations.StatusControlAndCmdReads := by
  intro s rest
  refine ⟨fun he => ⟨s.status.toWord, ?_, ?_⟩, fun he => ⟨s.ctrlWord, ?_, s.ctrlWord_bits⟩, fun he => ?_⟩
  · exact step_memRead_contents (by decide) (by decide) he (State.inFlight_control (.inr (.inl rfl)))
  · obtain ⟨hbusy, hdone, herr, hovr, hflag, -⟩ := s.status.toWord_bits
    exact ⟨hbusy, hdone, herr, hovr, hflag, s.status.toWord_errcode, s.status.extractLsb'_toWord_reserved⟩
  · exact step_memRead_contents (by decide) (by decide) he (State.inFlight_control (.inl rfl))
  · exact step_memRead_contents (by decide) (by decide) he (State.inFlight_control (.inr (.inr rfl)))

/-- Settles O48: a busy block ignores both writes, an idle one stores the same word twice; IE takes the same bit twice. -/
theorem dataWritesAreIdempotent : Obligations.DataWritesAreIdempotent := by
  intro s r v hr
  have data : r.IsData → (s.status.busy = false → (s.hostWrite r v).hostWrite r v = s.hostWrite r v) →
      (s.hostWrite r v).hostWrite r v = s.hostWrite r v := by
    intro hdata hidle
    cases hb : s.status.busy with
    | false => exact hidle hb
    | true => rw [State.hostWrite_busy hb hdata, State.hostWrite_busy hb hdata]
  obtain ⟨i, j, rfl⟩ | ⟨i, rfl⟩ | ⟨i, rfl⟩ | ⟨rfl, hv⟩ := hr
  · refine data (.inl ⟨i, j, rfl⟩) fun hb => ?_
    rw [State.hostWrite_x_idle hb, State.hostWrite_x_idle (by exact hb)]
    simp [setXWord_setXWord]
  · refine data (.inr (.inl ⟨i, rfl⟩)) fun hb => ?_
    rw [State.hostWrite_h_idle hb, State.hostWrite_h_idle (by exact hb)]
    simp
  · refine data (.inr (.inr ⟨i, rfl⟩)) fun hb => ?_
    rw [State.hostWrite_m_idle hb, State.hostWrite_m_idle (by exact hb)]
    simp
  · rw [State.hostWrite_ctrl_enable hv, State.hostWrite_ctrl_enable hv]

end

section
/-!
PROOFS. The parameters (00_scope.md section 3): a step reads of them only OPW and BASE, and of the commands only MONTMUL reads OPW
(R6, R54, R130, R201).
-/

namespace Sys2Proof.Machine

/-- The state of the same block as a chip with parameters `p`. -/
def State.withParams (s : State) (p : Params) : State := { s with params := p }

section
variable {s t : State} {p : Params} {i : Instr}

@[simp] theorem State.withParams_readX (r : RegField) : (s.withParams p).readX r = s.readX r := rfl
@[simp] theorem State.withParams_params : (s.withParams p).params = p := rfl

theorem State.withParams_ite (c : Prop) [Decidable c] (s t : State) :
    (if c then s else t).withParams p = if c then s.withParams p else t.withParams p :=
  apply_ite (State.withParams · p) c s t

/-- Whether a term is well-formed does not depend on the parameters, so the frame of a meaning commutes with them (R82). -/
theorem State.withOperands_withParams {rule rule' : State} (hrule : rule' = rule.withParams p)
    (h : s.withOperands i rule = .next t) : (s.withParams p).withOperands i rule' = .next (t.withParams p) := by
  rw [State.withOperands_eq] at h ⊢
  cases h
  rw [hrule]
  split
  · rfl
  · rfl

/-- A command does the same whatever the parameters, MONTMUL whatever the ones but OPW (R6, R130). -/
theorem exec_withParams (hopw : (∃ rd ra rb rn, i = .montmul rd ra rb rn) → p.opw = s.params.opw)
    (h : exec i s = .next t) : exec i (s.withParams p) = .next (t.withParams p) := by
  cases i with
  | montmul rd ra rb rn =>
    refine State.withOperands_withParams ?_ h
    rw [State.withParams_params, hopw ⟨rd, ra, rb, rn, rfl⟩, State.withParams_ite, State.withParams_ite]
    rfl
  | modexp rd ra rb rn =>
    refine State.withOperands_withParams ?_ h
    rw [State.withParams_ite]
    rfl
  | gcd rd ra rb => exact State.withOperands_withParams rfl h
  | modinv rd ra rn =>
    refine State.withOperands_withParams ?_ h
    rw [State.withParams_ite]
    simp only [State.withParams_readX]
    cases modInv? (s.readX ra) (s.readX rn) with
    | none => rfl
    | some y => rfl
  | mrwit rd ra rn =>
    refine State.withOperands_withParams ?_ h
    rw [State.withParams_ite]
    rfl
  | shainit =>
    exact State.withOperands_withParams (s := s) (i := .shainit) (rule := (s.writeH initialHash).complete) rfl h
  | shacomp =>
    exact State.withOperands_withParams (s := s) (i := .shacomp) (rule := (s.writeH (compress s.h s.m)).complete) rfl h

end

/-! ### A step reads OPW and BASE (R54, R201) -/

section
variable {s t : State} {p : Params} (hopw : p.opw = s.params.opw)
include hopw

theorem engineTurn_withParams (h : engineTurn s = .next t) : engineTurn (s.withParams p) = .next (t.withParams p) := by
  cases hb : s.status.busy with
  | false =>
    rw [engineTurn_idle hb] at h
    cases h
    exact engineTurn_idle hb
  | true =>
    cases hd : decode s.cmdlatch with
    | ok i =>
      rw [engineTurn_command hb hd] at h
      exact (engineTurn_command (s := s.withParams p) hb hd).trans (exec_withParams (fun _ => hopw) h)
    | error c =>
      rw [engineTurn_illegal hb hd] at h
      cases h
      exact engineTurn_illegal (s := s.withParams p) hb hd

theorem nw_eq_of_opw_eq : p.nw = s.params.nw := by rw [Params.nw, Params.nw, hopw]

theorem State.peek_withParams (r : WindowReg) : (s.withParams p).peek r = s.peek r := by
  cases r with
  | info =>
    change infoWord p = infoWord s.params
    rw [infoWord, infoWord, nw_eq_of_opw_eq hopw]
  | _ => rfl

theorem State.hostRead_withParams (r : WindowReg) : (s.withParams p).hostRead r = (s.hostRead r).withParams p := by
  have hflight : (s.withParams p).inFlight r = s.inFlight r := rfl
  rw [State.hostRead, State.hostRead, hflight, State.peek_withParams hopw]
  split
  · rfl
  · rfl

omit hopw in
theorem State.hostWrite_withParams (r : WindowReg) (v : Word) :
    (s.withParams p).hostWrite r v = (s.hostWrite r v).withParams p := by
  have hbusy : (s.withParams p).status.busy = s.status.busy := rfl
  cases r with
  | info => rfl
  | reserved => rfl
  | status => rfl
  | _ =>
    simp only [State.hostWrite, hbusy]
    split
    · rfl
    · rfl

variable (hbase : p.base = s.params.base)
include hbase

theorem hostAccess_withParams {a : Access} (h : hostAccess a s = .next t) :
    hostAccess a (s.withParams p) = .next (t.withParams p) := by
  have hreg : (s.withParams p).regAt a.addr = s.regAt a.addr := by
    rw [State.regAt, State.regAt, State.withParams_params, hbase, nw_eq_of_opw_eq hopw]
  obtain ⟨hl, hcases⟩ := hostAccess_next_cases a s t h
  have hl' : a.legal (s.withParams p).params = true := by
    rw [Access.legal_iff, State.withParams_params, inWindow, hbase]
    exact hl
  obtain ⟨hread, hwrite⟩ := hostAccess_of_legal hl'
  rw [hreg] at hread hwrite
  obtain ⟨hop, rfl⟩ | ⟨v, hop, rfl⟩ := hcases
  · rw [hread hop, State.hostRead_withParams hopw]
  · rw [hwrite v hop, State.hostWrite_withParams]

/-- A chip that agrees in OPW and BASE makes the same step. -/
theorem step_withParams (h : step s = .next t) : step (s.withParams p) = .next (t.withParams p) := by
  cases he : s.events with
  | nil =>
    rw [step, he] at h
    rw [step, show (s.withParams p).events = [] from he]
    exact engineTurn_withParams hopw h
  | cons e rest =>
    have he' : (s.withParams p).events = e :: rest := he
    cases e with
    | engine =>
      rw [step_engine (.inl he)] at h
      rw [step_engine (.inl he')]
      exact engineTurn_withParams (s := s.afterTurn rest) hopw h
    | access a =>
      rw [step_access he] at h
      rw [step_access he']
      exact hostAccess_withParams (s := s.afterTurn rest) hopw hbase h

end

end Sys2Proof.Machine

open Sys2Proof Sys2Proof.Machine

/-- Settles O50: the rules of the other commands read registers, H and M only. -/
theorem onlyMontmulDependsOnOpw : Obligations.OnlyMontmulDependsOnOpw := by
  intro i s t p hne h
  exact exec_withParams (fun ⟨rd, ra, rb, rn, hi⟩ => absurd hi (hne rd ra rb rn)) h

/-- Settles O51: a step reads only OPW and BASE of the parameters, and keeps them. -/
theorem wiringIsUnobservable : Obligations.WiringIsUnobservable := by
  intro s t b l h
  rw [(step_params_events h).1]
  exact step_withParams (p := { s.params with busByteOrder := b, irqLine := l }) rfl rfl h

end

section
/-!
PROOFS. Numbers: Montgomery's product and its word-serial form (spec/40_modular_arithmetic.md section 4), and the witness test on
primes and at its corner bases (spec/41_primality.md section 2).
-/

namespace Sys2Proof.Machine

/-! ### The Montgomery product (R124, R128) -/

section
variable {n : Nat} (hodd : n % 2 = 1)
include hodd

/-- A power of two can be cancelled modulo an odd number (R123). -/
theorem modEq_of_mul_two_pow_modEq {x y k : Nat} (h : x * 2 ^ k ≡ y * 2 ^ k [MOD n]) : x ≡ y [MOD n] :=
  Nat.ModEq.cancel_right_of_coprime
    ((Nat.coprime_two_right.mpr (Nat.odd_iff.mpr hodd)).pow_right k : Nat.Coprime n (2 ^ k)) h

theorem montProduct_mul_radix_modEq (opw a b : Nat) : montProduct opw a b n * 2 ^ opw ≡ a * b [MOD n] :=
  (montProduct_spec opw a b n hodd).2

/-- A product with `R^2` takes an operand into Montgomery form. -/
theorem montProduct_radix_sq_modEq (opw v : Nat) : montProduct opw v (2 ^ (2 * opw) % n) n ≡ v * 2 ^ opw [MOD n] := by
  apply modEq_of_mul_two_pow_modEq hodd (k := opw)
  calc montProduct opw v (2 ^ (2 * opw) % n) n * 2 ^ opw
    _ ≡ v * (2 ^ (2 * opw) % n) [MOD n] := montProduct_mul_radix_modEq hodd opw _ _
    _ ≡ v * 2 ^ (2 * opw) [MOD n] := (Nat.mod_modEq _ n).mul_left v
    _ = v * 2 ^ opw * 2 ^ opw := by rw [two_mul, pow_add, mul_assoc]

/-- A product of two operands in Montgomery form is their product in Montgomery form. -/
theorem montProduct_montgomery_modEq {opw a b v w : Nat} (ha : a ≡ v * 2 ^ opw [MOD n]) (hb : b ≡ w * 2 ^ opw [MOD n]) :
    montProduct opw a b n ≡ v * w * 2 ^ opw [MOD n] := by
  apply modEq_of_mul_two_pow_modEq hodd (k := opw)
  calc montProduct opw a b n * 2 ^ opw
    _ ≡ a * b [MOD n] := montProduct_mul_radix_modEq hodd opw a b
    _ ≡ v * 2 ^ opw * (w * 2 ^ opw) [MOD n] := ha.mul hb
    _ = v * w * 2 ^ opw * 2 ^ opw := by ring

/-- A product with 1 takes an operand out of Montgomery form. -/
theorem montProduct_one_modEq {opw a v : Nat} (ha : a ≡ v * 2 ^ opw [MOD n]) : montProduct opw a 1 n ≡ v [MOD n] := by
  apply modEq_of_mul_two_pow_modEq hodd (k := opw)
  calc montProduct opw a 1 n * 2 ^ opw
    _ ≡ a * 1 [MOD n] := montProduct_mul_radix_modEq hodd opw a 1
    _ ≡ v * 2 ^ opw [MOD n] := by rwa [mul_one]

end

/-! ### The word-serial REDC (R127) -/

/-- `n * n'` is -1 modulo `2^32` for odd `n`. -/
theorem two_pow_dvd_redcFactor_mul_add_one {n : Nat} (hodd : n % 2 = 1) : 2 ^ 32 ∣ redcFactor n * n + 1 := by
  have hco : Nat.gcd n (2 ^ 32) = 1 := (Nat.coprime_two_right.mpr (Nat.odd_iff.mpr hodd)).pow_right 32
  cases hm : modInv? n (2 ^ 32) with
  | none => exact absurd hco ((modInv?_eq_none_iff _ _).mp hm)
  | some y =>
    obtain ⟨hlt, hinv⟩ := modInv?_spec n (2 ^ 32) y (by positivity) hm
    have hneg : redcFactor n + y ≡ 0 [MOD 2 ^ 32] := by
      rw [redcFactor, hm, Option.getD_some]
      calc (2 ^ 32 - y) % 2 ^ 32 + y
        _ ≡ 2 ^ 32 - y + y [MOD 2 ^ 32] := (Nat.mod_modEq _ _).add_right y
        _ = 2 ^ 32 := Nat.sub_add_cancel hlt.le
        _ ≡ 0 [MOD 2 ^ 32] := Nat.modEq_zero_iff_dvd.mpr dvd_rfl
    apply Nat.modEq_zero_iff_dvd.mp
    calc redcFactor n * n + 1
      _ ≡ redcFactor n * n + n * y [MOD 2 ^ 32] := (Nat.ModEq.symm hinv).add_left _
      _ = (redcFactor n + y) * n := by ring
      _ ≡ 0 * n [MOD 2 ^ 32] := hneg.mul_right n
      _ = 0 := Nat.zero_mul n

section
variable {a b n : Nat} (hodd : n % 2 = 1)
include hodd

/-- The multiple of `n` that a round adds makes the sum a multiple of `2^32`. -/
theorem two_pow_dvd_add_mul (t : Nat) : 2 ^ 32 ∣ t + (t % 2 ^ 32) * redcFactor n % 2 ^ 32 * n := by
  have h : t + (t % 2 ^ 32) * redcFactor n % 2 ^ 32 * n ≡ 0 [MOD 2 ^ 32] := by
    calc t + (t % 2 ^ 32) * redcFactor n % 2 ^ 32 * n
      _ ≡ t + t * redcFactor n * n [MOD 2 ^ 32] :=
        (((Nat.mod_modEq _ _).trans ((Nat.mod_modEq t _).mul_right _)).mul_right n).add_left t
      _ = t * (redcFactor n * n + 1) := by ring
      _ ≡ 0 [MOD 2 ^ 32] := Nat.modEq_zero_iff_dvd.mpr ((two_pow_dvd_redcFactor_mul_add_one hodd).mul_left t)
  exact Nat.modEq_zero_iff_dvd.mp h

/-- A round divides exactly, so it undoes a factor `2^32`: it adds word `i` of `a` times `b` modulo `n`. -/
theorem redcStep_mul_modEq (t i : Nat) :
    redcStep a b n t i * 2 ^ 32 ≡ t + a / 2 ^ (32 * i) % 2 ^ 32 * b [MOD n] := by
  rw [redcStep, Nat.div_mul_cancel (two_pow_dvd_add_mul hodd _)]
  exact Nat.add_mul_mod_self_right _ _ _

/-- Before round `i` the sum, times its radix, is the product with the words of `a` below `i` (R127). -/
theorem redcLoop_mul_modEq (i : Nat) :
    (List.range i).foldl (redcStep a b n) 0 * 2 ^ (32 * i) ≡ a % 2 ^ (32 * i) * b [MOD n] := by
  induction i with
  | zero => simpa [Nat.mod_one] using Nat.ModEq.refl 0
  | succ i ih =>
    rw [List.range_succ, List.foldl_append, List.foldl_cons, List.foldl_nil]
    set t := (List.range i).foldl (redcStep a b n) 0
    calc redcStep a b n t i * 2 ^ (32 * (i + 1))
      _ = redcStep a b n t i * 2 ^ 32 * 2 ^ (32 * i) := by ring
      _ ≡ (t + a / 2 ^ (32 * i) % 2 ^ 32 * b) * 2 ^ (32 * i) [MOD n] := (redcStep_mul_modEq hodd t i).mul_right _
      _ = t * 2 ^ (32 * i) + a / 2 ^ (32 * i) % 2 ^ 32 * b * 2 ^ (32 * i) := by ring
      _ ≡ a % 2 ^ (32 * i) * b + a / 2 ^ (32 * i) % 2 ^ 32 * b * 2 ^ (32 * i) [MOD n] := ih.add_right _
      _ = a % 2 ^ (32 * (i + 1)) * b := by rw [mod_succ_words, toNat_xWord]; ring

end

/-- A round keeps the sum below `b + n`. -/
theorem redcStep_lt {a b n t : Nat} (ht : t < b + n) (i : Nat) : redcStep a b n t i < b + n := by
  have hword : (a / 2 ^ (32 * i) % 2 ^ 32 + 1) * b ≤ 2 ^ 32 * b :=
    Nat.mul_le_mul_right b (Nat.mod_lt _ (by positivity))
  have hfactor : ∀ q, (q % 2 ^ 32 + 1) * n ≤ 2 ^ 32 * n := fun q =>
    Nat.mul_le_mul_right n (Nat.mod_lt q (by positivity))
  refine Nat.div_lt_of_lt_mul ?_
  linarith [hfactor ((t + a / 2 ^ (32 * i) % 2 ^ 32 * b) % 2 ^ 32 * redcFactor n)]

theorem redcLoop_lt {a b n : Nat} (hn : 0 < n) (i : Nat) : (List.range i).foldl (redcStep a b n) 0 < b + n := by
  induction i with
  | zero => exact hn.trans_le (Nat.le_add_left n b)
  | succ i ih =>
    rw [List.range_succ, List.foldl_append, List.foldl_cons, List.foldl_nil]
    exact redcStep_lt ih i

end Sys2Proof.Machine

open Sys2Proof Sys2Proof.Machine

/-- Settles O53: into Montgomery form, product, and out of it again, each modulo `n`. -/
theorem montgomeryConversionMultiplies : Obligations.MontgomeryConversionMultiplies := by
  intro opw v w n hodd
  have hprod := montProduct_montgomery_modEq hodd (montProduct_radix_sq_modEq hodd opw v)
    (montProduct_radix_sq_modEq hodd opw w)
  have hlt := (montProduct_spec opw (montProduct opw (montProduct opw v (2 ^ (2 * opw) % n) n)
    (montProduct opw w (2 ^ (2 * opw) % n) n) n) 1 n hodd).1
  exact (Nat.mod_eq_of_lt hlt).symm.trans (montProduct_one_modEq hodd hprod)

/-- Settles O52: the loop's value, times the radix, is the product modulo `n` (`redcLoop_mul_modEq`), which determines its
residue; and every round keeps it below `b + n`. -/
theorem redcEqualsMontgomeryProduct : Obligations.RedcEqualsMontgomeryProduct := by
  intro nw a b n hodd ha hb
  have hn : 0 < n := by omega
  refine ⟨?_, (redcLoop_lt hn nw).trans (Nat.add_lt_add_right hb n)⟩
  obtain ⟨hlt, hprod⟩ := montProduct_spec (32 * nw) a b n hodd
  refine eq_of_mul_radix_modEq hodd (Nat.mod_lt _ hn) hlt (opw := 32 * nw) (Nat.ModEq.trans ?_ hprod.symm)
  calc redc nw a b n * 2 ^ (32 * nw)
    _ ≡ (List.range nw).foldl (redcStep a b n) 0 * 2 ^ (32 * nw) [MOD n] := (Nat.mod_modEq _ n).mul_right _
    _ ≡ a % 2 ^ (32 * nw) * b [MOD n] := redcLoop_mul_modEq hodd nw
    _ = a * b := by rw [Nat.mod_eq_of_lt ha]

end

section
/-!
PROOFS. The witness test (spec/41_primality.md section 2): its corner bases (R144), and that a prime passes it for every base that is
not a multiple of it (R145), as 1 has no square roots modulo a prime but 1 and -1.
-/

namespace Sys2Proof.Machine

/-- A residue is `n - 1` exactly when the number is -1 modulo `n`. -/
theorem mod_eq_pred_iff_dvd_succ {a n : Nat} (hn : 0 < n) : a % n = n - 1 ↔ n ∣ a + 1 := by
  have hlt : a % n < n := Nat.mod_lt a hn
  have hresidue : n ∣ a + 1 ↔ n ∣ a % n + 1 := by
    conv_lhs => rw [← Nat.div_add_mod a n, Nat.add_assoc]
    exact Nat.dvd_add_right (Nat.dvd_mul_right n _)
  rw [hresidue]
  constructor
  · intro h
    rw [h, Nat.sub_add_cancel hn]
  · intro h
    have := Nat.le_of_dvd (Nat.succ_pos _) h
    omega

/-- R142's test of the two parts that R140's decomposition has. -/
theorem isWitness_eq_false_iff_decompose (n a : Nat) : isWitness n a = false ↔
    a ^ (decompose n).2 % n = 1 ∨ a ^ (decompose n).2 % n = n - 1 ∨
      ∃ j, 1 ≤ j ∧ j ≤ (decompose n).1 - 1 ∧ a ^ ((decompose n).2 * 2 ^ j) % n = n - 1 :=
  isWitness_eq_false_iff rfl

/-! ### Corner bases (R144) -/

theorem powMod_add_modulus (a d n : Nat) : powMod (a + n) d n = powMod a d n := by
  rw [powMod_eq, powMod_eq, Nat.pow_mod, Nat.add_mod_right, ← Nat.pow_mod]

theorem isWitness_add_modulus (n a : Nat) : isWitness n (a + n) = isWitness n a := by
  simp only [isWitness, powMod_add_modulus]

section
variable {n a : Nat} (hn : 1 < n)
include hn

/-- No power of a multiple of `n` is 1 or -1 modulo `n`. -/
theorem isWitness_of_mod_eq_zero (ha : a % n = 0) : isWitness n a = true := by
  obtain ⟨hodd, -⟩ := decompose_spec n hn
  have hpow : ∀ e, e ≠ 0 → a ^ e % n = 0 := fun e he => by
    rw [Nat.pow_mod, ha, zero_pow he, Nat.zero_mod]
  rw [← Bool.not_eq_false, isWitness_eq_false_iff_decompose]
  rintro (h | h | ⟨j, -, -, h⟩)
  · rw [hpow _ (by omega)] at h
    omega
  · rw [hpow _ (by omega)] at h
    omega
  · rw [hpow _ (mul_ne_zero (by omega) (by positivity))] at h
    omega

/-- An odd power of 1 or -1 is the same. -/
theorem isWitness_of_mod_eq_one_or_pred (ha : a % n = 1 ∨ a % n = n - 1) : isWitness n a = false := by
  obtain ⟨hodd, -⟩ := decompose_spec n hn
  rw [isWitness_eq_false_iff_decompose]
  obtain h | h := ha
  · exact .inl (by rw [Nat.pow_mod, h, one_pow, Nat.mod_eq_of_lt hn])
  · refine .inr (.inl ?_)
    rw [mod_eq_pred_iff_dvd_succ (by omega)] at h ⊢
    have hfactor := Odd.nat_add_dvd_pow_add_pow a 1 (Nat.odd_iff.mpr hodd)
    rw [one_pow] at hfactor
    exact h.trans hfactor

end

/-! ### Primes (R145) -/

section
variable {p x : Nat} (hp : p.Prime)
include hp

/-- Modulo a prime 1 has only the square roots 1 and -1. -/
theorem modEq_one_or_dvd_succ_of_sq (h : x ^ 2 ≡ 1 [MOD p]) : x ≡ 1 [MOD p] ∨ p ∣ x + 1 := by
  obtain rfl | hx := Nat.eq_zero_or_pos x
  · exact .inl ((Nat.ModEq.pow 2 (Nat.ModEq.refl 0)).trans h)
  have hdvd : p ∣ (x + 1) * (x - 1) := by
    rw [← Nat.sq_sub_sq, one_pow]
    exact (Nat.modEq_iff_dvd' (Nat.one_le_pow _ _ hx)).mp h.symm
  obtain h1 | h1 := hp.dvd_mul.mp hdvd
  · exact .inr h1
  · exact .inl ((Nat.modEq_iff_dvd' hx).mpr h1).symm

/-- Where repeated squaring ends at 1, it starts at 1 or passes -1. -/
theorem modEq_one_or_exists_dvd_succ (k : Nat) (h : x ^ 2 ^ k ≡ 1 [MOD p]) :
    x ≡ 1 [MOD p] ∨ ∃ j < k, p ∣ x ^ 2 ^ j + 1 := by
  induction k with
  | zero => exact .inl (by simpa using h)
  | succ k ih =>
    rw [pow_succ, pow_mul] at h
    obtain h1 | h1 := modEq_one_or_dvd_succ_of_sq hp h
    · exact (ih h1).imp_right fun ⟨j, hj, hd⟩ => ⟨j, Nat.lt_succ_of_lt hj, hd⟩
    · exact .inr ⟨k, Nat.lt_succ_self k, h1⟩

/-- A prime has no witness among the bases that are not multiples of it. -/
theorem isWitness_eq_false_of_prime {a : Nat} (ha : a % p ≠ 0) : isWitness p a = false := by
  obtain ⟨-, hprod⟩ := decompose_spec p hp.one_lt
  rw [isWitness_eq_false_iff_decompose]
  set k := (decompose p).1
  set d := (decompose p).2
  have hfermat : (a ^ d) ^ 2 ^ k ≡ 1 [MOD p] := by
    have hco : Nat.Coprime a p := ((Nat.Prime.coprime_iff_not_dvd hp).mpr fun h => ha (Nat.mod_eq_zero_of_dvd h)).symm
    rw [← pow_mul, mul_comm d, hprod, ← Nat.totient_prime hp]
    exact Nat.ModEq.pow_totient hco
  obtain h | ⟨j, hj, hd⟩ := modEq_one_or_exists_dvd_succ hp k hfermat
  · exact .inl (Eq.trans h (Nat.mod_eq_of_lt hp.one_lt))
  · rw [← pow_mul, ← mod_eq_pred_iff_dvd_succ hp.pos] at hd
    obtain rfl | hpos := Nat.eq_zero_or_pos j
    · exact .inr (.inl (by simpa using hd))
    · exact .inr (.inr ⟨j, hpos, by omega, hd⟩)

end

end Sys2Proof.Machine

open Sys2Proof Sys2Proof.Machine

/-- Settles O55: a power of the base depends on its residue, and the residues 0, 1 and -1 have the same odd powers. -/
theorem witnessCornerBases : Obligations.WitnessCornerBases :=
  fun n a hn => ⟨isWitness_add_modulus n a, isWitness_of_mod_eq_zero hn, isWitness_of_mod_eq_one_or_pred hn⟩

/-- Settles O54: by Fermat the squarings of `a ^ d` end at 1, so they start there or pass -1, as 1 has no other square roots. -/
theorem primesHaveNoWitness : Obligations.PrimesHaveNoWitness := by
  intro s rd ra rn hwf hp ha
  exact exec_mrwit hwf hp.one_lt (isWitness_eq_false_of_prime hp ha)

end

section
/-!
PROOFS. SHA-256 (spec/42_sha256.md): the word operations bit by bit, the constants as roots of primes, and blocks compressed in a
chain.
-/

namespace Sys2Proof.Machine

/-! ### Word operations (R160 to R163) -/

section
variable {i : Nat}

theorem getLsbD_rotr (x : Word) {k : Nat} (hk : 0 < k) (hk' : k < 32) (hi : i < 32) :
    (rotr x k).getLsbD i = x.getLsbD ((i + k) % 32) := by
  rw [rotr, BitVec.getLsbD_or, BitVec.getLsbD_ushiftRight, BitVec.getLsbD_shiftLeft, Nat.add_comm k]
  by_cases hwrap : i + k < 32
  · rw [Nat.mod_eq_of_lt hwrap]
    have : i < 32 - k := by omega
    simp [this]
  · have hmod : (i + k) % 32 = i - (32 - k) := by omega
    have : ¬ i < 32 - k := by omega
    rw [hmod, BitVec.getLsbD_of_ge x (i + k) (by omega)]
    simp [this, hi]

theorem getLsbD_shr (x : Word) (k : Nat) : (shr x k).getLsbD i = (decide (i + k < 32) && x.getLsbD (i + k)) := by
  rw [shr, BitVec.getLsbD_ushiftRight, Nat.add_comm k]
  by_cases h : i + k < 32
  · simp [h]
  · simp [h, BitVec.getLsbD_of_ge x (i + k) (by omega)]

theorem getLsbD_ch (e f g : Word) (hi : i < 32) :
    (ch e f g).getLsbD i = if e.getLsbD i then f.getLsbD i else g.getLsbD i := by
  rw [ch, BitVec.getLsbD_xor, BitVec.getLsbD_and, BitVec.getLsbD_and, BitVec.getLsbD_not]
  cases e.getLsbD i <;> simp [hi]

theorem getLsbD_maj (a b c : Word) : (maj a b c).getLsbD i =
    ((a.getLsbD i && b.getLsbD i) || (a.getLsbD i && c.getLsbD i) || (b.getLsbD i && c.getLsbD i)) := by
  simp only [maj, BitVec.getLsbD_xor, BitVec.getLsbD_and]
  cases a.getLsbD i <;> cases b.getLsbD i <;> cases c.getLsbD i <;> rfl

end

/-! ### The first primes -/

/-- The numbers below `N` with a property, in order, are the first numbers with it. -/
theorem nth_eq_getD_filter_range (p : Nat → Prop) [DecidablePred p] (N : Nat) {t : Nat}
    (ht : t < ((List.range N).filter (p ·)).length) :
    Nat.nth p t = ((List.range N).filter (p ·)).getD t 0 := by
  induction N with
  | zero => exact absurd ht (Nat.not_lt_zero t)
  | succ N ih =>
    rw [List.range_succ, List.filter_append] at ht ⊢
    by_cases hlt : t < ((List.range N).filter (p ·)).length
    · rw [List.getD_append _ _ _ _ hlt, ih hlt]
    · have hcount : ((List.range N).filter (p ·)).length = Nat.count p N := List.countP_eq_length_filter.symm
      obtain ⟨hpN, rfl⟩ : p N ∧ t = Nat.count p N := by
        by_cases hpN : p N
        · rw [List.filter_singleton, decide_eq_true hpN, Bool.cond_true, List.length_append, List.length_singleton] at ht
          exact ⟨hpN, by omega⟩
        · rw [List.filter_singleton, decide_eq_false hpN, Bool.cond_false, List.append_nil] at ht
          exact absurd ht hlt
      rw [List.getD_append_right _ _ _ _ hcount.le, hcount, Nat.sub_self, Nat.nth_count hpN, List.filter_singleton,
        decide_eq_true hpN]
      rfl

/-- The primes below 312, in order. -/
def firstPrimes : List Nat :=
  [2, 3, 5, 7, 11, 13, 17, 19, 23, 29, 31, 37, 41, 43, 47, 53, 59, 61, 67, 71, 73, 79, 83, 89, 97, 101, 103, 107, 109, 113,
    127, 131, 137, 139, 149, 151, 157, 163, 167, 173, 179, 181, 191, 193, 197, 199, 211, 223, 227, 229, 233, 239, 241, 251,
    257, 263, 269, 271, 277, 281, 283, 293, 307, 311]

theorem filter_prime_range : (List.range 312).filter (Nat.Prime ·) = firstPrimes := by decide +kernel

theorem nth_prime_eq_getD_firstPrimes {t : Nat} (ht : t < 64) : Nat.nth Nat.Prime t = firstPrimes.getD t 0 := by
  rw [nth_eq_getD_filter_range Nat.Prime 312 (by rwa [filter_prime_range]), filter_prime_range]

/-! ### The constants (R164, R165) -/

/-- The integer part of the `k`-th root of a number below `8 ^ k`. -/
def rootFloor (k q : Nat) : Nat := (List.range 7).countP fun r => (r + 1) ^ k ≤ q

/-- The `k`-th root of `q` times `2 ^ 32`, rounded down, if `w` is its fractional part. -/
def scaledRoot (k q : Nat) (w : Word) : Nat := 2 ^ 32 * rootFloor k q + w.toNat

theorem scaledRoot_mod (k q : Nat) (w : Word) : w.toNat = scaledRoot k q w % 2 ^ 32 := by
  rw [scaledRoot, Nat.mul_add_mod, Nat.mod_eq_of_lt w.isLt]

theorem roundConstants_cubeRoots : ∀ t < 64,
    scaledRoot 3 (firstPrimes.getD t 0) (roundConstants.getD t 0) ^ 3 ≤ firstPrimes.getD t 0 * 2 ^ 96 ∧
    firstPrimes.getD t 0 * 2 ^ 96 < (scaledRoot 3 (firstPrimes.getD t 0) (roundConstants.getD t 0) + 1) ^ 3 := by
  decide +kernel

theorem initialHash_squareRoots : ∀ i : Fin 8,
    scaledRoot 2 (firstPrimes.getD i 0) initialHash[i] ^ 2 ≤ firstPrimes.getD i 0 * 2 ^ 64 ∧
    firstPrimes.getD i 0 * 2 ^ 64 < (scaledRoot 2 (firstPrimes.getD i 0) initialHash[i] + 1) ^ 2 := by
  decide +kernel

end Sys2Proof.Machine

open Sys2Proof Sys2Proof.Machine

/-- Settles O56: each operation at one bit, with the rotation's two parts where they meet. -/
theorem shaWordOperationsBitwise : Obligations.ShaWordOperationsBitwise :=
  ⟨fun x k _ hk hk' hi => ⟨getLsbD_rotr x hk hk' hi, getLsbD_shr x k⟩,
    fun a b c _ hi => ⟨getLsbD_ch a b c hi, getLsbD_maj a b c⟩, fun _ => ⟨rfl, rfl, rfl, rfl⟩⟩

/-- Settles O57: the prime number `t` is entry `t` of the table of primes, and each constant, after the integer part of the root of
its prime, is the root to 32 binary places. -/
theorem shaConstantsAreRoots : Obligations.ShaConstantsAreRoots := by
  refine ⟨rfl, fun t ht => ?_, fun i => ?_⟩
  · obtain ⟨hle, hlt⟩ := roundConstants_cubeRoots t ht
    rw [nth_prime_eq_getD_firstPrimes ht]
    exact ⟨_, hle, hlt, scaledRoot_mod _ _ _⟩
  · obtain ⟨hle, hlt⟩ := initialHash_squareRoots i
    rw [nth_prime_eq_getD_firstPrimes (by omega)]
    exact ⟨_, hle, hlt, scaledRoot_mod _ _ _⟩

/-- Settles O58, by induction on the number of blocks compressed: each SHACOMP leaves `compress` of the hash before it. -/
theorem chainedBlocksFoldCompress : Obligations.ChainedBlocksFoldCompress := by
  intro blocks states hchain
  have hprefix : ∀ k ≤ blocks.length, (states k).h = (blocks.take k).foldl compress (states 0).h := by
    intro k
    induction k with
    | zero => exact fun _ => rfl
    | succ k ih =>
      intro hk
      have hnext := Host.Outcome.next.inj ((exec_shacomp _).symm.trans (hchain k hk))
      rw [← hnext, List.take_succ_eq_append_getElem hk, List.foldl_append, ← ih (Nat.le_of_succ_le hk)]
      rfl
  rw [hprefix _ le_rfl, List.take_length]

end
